-- ==== Sys2Proof/Word.lean ====
section
/-! DEFINITION. The bit-vector types of murmur3_x64_128_core: register words, payloads, command words, responses. -/

namespace Sys2Proof

/-- One byte: one payload lane, one byte of the host's buffer (20_memory.md R40, R41). -/
abbrev Byte := BitVec 8

/-- A 64-bit value: `h1`, `h2`, `length`, and every intermediate value (00_scope.md R6, R10). -/
abbrev Word := BitVec 64

/-- The payload `DATA = CMD[127:0]`: 16 byte lanes (20_memory.md R41). -/
abbrev Payload := BitVec 128

/-- A command word `CMD[135:0]` (30_encoding.md R61). -/
abbrev CmdWord := BitVec 136

/-- A value on the response channel, `RSP = {h1', h2'}` (20_memory.md R45). -/
abbrev RspWord := BitVec 128

end Sys2Proof
end

