-- ==== Sys2Proof/Machine/Arith.lean ====
section
/-! DEFINITION. The constants and the bit-level primitives of the spec: constants (00_scope.md R6), lanes, little-endian
reads, extensions and rotation (00_scope.md R9, R10). Addition, multiplication, XOR, OR and the two shifts are `BitVec`'s:
all wrap modulo 2^64, and `>>>` is the logical right shift. -/

namespace Sys2Proof.Machine

/-- `C1` (00_scope.md R6). -/
def constC1 : Word := 0x87c37b91114253d5#64
/-- `C2` (00_scope.md R6). -/
def constC2 : Word := 0x4cf5ad432745937f#64
/-- `N1`, the additive constant of the `h1` block update (00_scope.md R6). -/
def constN1 : Word := 0x52dce729#64
/-- `N2`, the additive constant of the `h2` block update (00_scope.md R6). -/
def constN2 : Word := 0x38495ab5#64
/-- `F1`, the first `fmix64` multiplier (00_scope.md R6). -/
def constF1 : Word := 0xff51afd7ed558ccd#64
/-- `F2`, the second `fmix64` multiplier (00_scope.md R6). -/
def constF2 : Word := 0xc4ceb9fe1a85ec53#64
/-- The block multiplier, 5 (00_scope.md R6). -/
def blockMul : Word := 5#64
/-- The `fmix64` shift amount, 33 (00_scope.md R6). -/
def fmixShift : Nat := 33

/-- `rotl64(a, r)`, for `1 <= r <= 63` (00_scope.md R10). -/
def rotl64 (a : Word) (r : Nat) : Word := (a <<< r) ||| (a >>> (64 - r))

/-- `sext_64` of a 32-bit value (00_scope.md R9). -/
def sext64 (v : BitVec 32) : Word := v.signExtend 64

/-- `zext_64` of a value of any width up to 64 (00_scope.md R9). -/
def zext64 {w : Nat} (v : BitVec w) : Word := v.setWidth 64

/-- `lane(D, i) = D[8*i+7 : 8*i]` (00_scope.md R9). -/
def lane (d : Payload) (i : Nat) : Byte := d.extractLsb' (8 * i) 8

/-- `D[63:0]`. -/
def lowHalf (d : BitVec 128) : Word := d.extractLsb' 0 64

/-- `D[127:64]`. -/
def highHalf (d : BitVec 128) : Word := d.extractLsb' 64 64

/-- `{a, b}`: 128 bits with `a` in the high half (00_scope.md R9). -/
def cat64 (a b : Word) : BitVec 128 := a ++ b

/-- The 128-bit value `M` of `tailK`: lanes `0 .. n-1` of `d`, the others 0 (42_tail_finalizer.md R120, R127). -/
def maskLanes : Nat → Payload → Payload
  | 0, _ => 0#128
  | n + 1, d => maskLanes n d ||| ((lane d n).setWidth 128 <<< (8 * n))

/-- A payload with lane `i` equal to the byte at offset `i`, in buffer order, and the lanes past the end 0
(20_memory.md R41, 44_include.md R160). Bytes past offset 15 have no lane. -/
def payloadOf : List Byte → Payload
  | [] => 0#128
  | b :: bs => (b.setWidth 128) ||| (payloadOf bs <<< 8)

/-- The 16 lanes of a payload, lane 0 first. -/
def lanesOf (d : Payload) : List Byte := (List.range 16).map (lane d)

/-- `le64` of a byte sequence of at most eight bytes: `b0 + 2^8*b1 + ...` (00_scope.md R9), as a number. -/
def leNat : List Byte → Nat
  | [] => 0
  | b :: bs => b.toNat + 256 * leNat bs

end Sys2Proof.Machine
end

