-- ==== Sys2Proof/Syntax.lean ====
section
/-! DEFINITION. The command set: one constructor per row of spec/opcode_table.json (30_encoding.md R60). -/

namespace Sys2Proof

/-- The four commands, with the operands `decode` gives them (30_encoding.md R75). -/
inductive Instr where
  /-- RESET: `SEED = DATA[31:0]` (30_encoding.md R67). -/
  | reset (seed : BitVec 32)
  /-- BLOCK: `K1 = DATA[63:0]`, `K2 = DATA[127:64]` (30_encoding.md R68). -/
  | block (k1 k2 : BitVec 64)
  /-- TAIL: the count `N` and the whole payload; lanes `N` to 15 are ignored (30_encoding.md R69). -/
  | tail (n : BitVec 4) (data : BitVec 128)
  /-- HASH: no operand (30_encoding.md R71). -/
  | hash
  deriving DecidableEq, Repr

end Sys2Proof
end

