-- ==== Sys2Proof/WellFormed.lean ====
section
/-! DEFINITION. Well-formed instructions: the ones `encode` writes without loss. Widths are in the types, so the one check
left is that TAIL's ignored lanes are zero (30_encoding.md R70, R75; notes/assumptions/12.md). -/

namespace Sys2Proof

/-- TAIL carries nothing in lanes `n` to 15. An instruction that fails this is still legal and still executes. -/
def Instr.wf : Instr → Bool
  | .reset _ => true
  | .block _ _ => true
  | .tail n data => decide (Machine.maskLanes n.toNat data = data)
  | .hash => true

/-- `Instr.wf` as a proposition. -/
abbrev Instr.WellFormed (i : Instr) : Prop := i.wf = true

end Sys2Proof
end

