-- ==== Sys2Proof/Decode.lean ====
section
/-! DEFINITION. The decoder, total on every 136-bit word (30_encoding.md R73 to R75), the encoder, the byte-serial image of a
command word and of a program (30_encoding.md R63), and the host's `decodeTableWord`. -/

namespace Sys2Proof

/-- What `decode` answers: a command, or `Illegal(hdr)` (30_encoding.md R75). -/
inductive Decoded where
  | command (i : Instr)
  /-- The header selects no command (30_encoding.md R74). -/
  | illegal (hdr : BitVec 8)
  deriving DecidableEq, Repr

/-- What reading one command image off a byte sequence answers. -/
inductive ImageRead where
  /-- A whole image was there: what it decodes to, and the bytes after it. -/
  | word (d : Decoded) (rest : List Byte)
  /-- Fewer than 17 bytes are left: no command word (30_encoding.md R63). -/
  | tooShort (bytesLeft : Nat)
  deriving DecidableEq, Repr

/-- `HDR = CMD[135:128]` (30_encoding.md R61). -/
def headerOf (w : CmdWord) : BitVec 8 := w.extractLsb' 128 8

/-- `DATA = CMD[127:0]` (30_encoding.md R61). -/
def payloadPart (w : CmdWord) : Payload := w.extractLsb' 0 128

/-- `HDR[7:6]`, the field `OP` (30_encoding.md R62). -/
def opField (hdr : BitVec 8) : BitVec 2 := hdr.extractLsb' 6 2

/-- `HDR[5:4]`, the reserved field `RSV` (30_encoding.md R62). -/
def rsvField (hdr : BitVec 8) : BitVec 2 := hdr.extractLsb' 4 2

/-- `HDR[3:0]`, the field `N` (30_encoding.md R62). -/
def nField (hdr : BitVec 8) : BitVec 4 := hdr.extractLsb' 0 4

/-- `SEED = DATA[31:0]` (20_memory.md R44, 30_encoding.md R67). -/
def seedField (d : Payload) : BitVec 32 := d.extractLsb' 0 32

/-- The command word of a header and a payload (30_encoding.md R61). -/
def makeWord (hdr : BitVec 8) (d : Payload) : CmdWord := hdr ++ d

/-- The decoder of 30_encoding.md R75, test for test. -/
def decode (w : CmdWord) : Decoded :=
  if headerOf w = 0x00#8 then .command (.reset (seedField (payloadPart w)))
  else if headerOf w = 0x40#8 then
    .command (.block (Machine.lowHalf (payloadPart w)) (Machine.highHalf (payloadPart w)))
  else if (headerOf w).extractLsb' 4 4 = 0x8#4 then .command (.tail (nField (headerOf w)) (payloadPart w))
  else if headerOf w = 0xC0#8 then .command .hash
  else .illegal (headerOf w)

/-- A header value is legal when one of the rows of 30_encoding.md R73 matches it under its mask. -/
def legalHeader (hdr : BitVec 8) : Bool :=
  hdr &&& 0xFF#8 == 0x00#8 || hdr &&& 0xFF#8 == 0x40#8 || hdr &&& 0xF0#8 == 0x80#8 || hdr &&& 0xFF#8 == 0xC0#8

/-- The header of a command (30_encoding.md R67, R68, R69, R71). -/
def Instr.header : Instr → BitVec 8
  | .reset _ => 0x00#8
  | .block _ _ => 0x40#8
  | .tail n _ => 0x8#4 ++ n
  | .hash => 0xC0#8

/-- The canonical payload of a command: every ignored bit 0 (30_encoding.md R67 to R71). -/
def Instr.payload : Instr → Payload
  | .reset seed => seed.setWidth 128
  | .block k1 k2 => Machine.cat64 k2 k1
  | .tail n data => Machine.maskLanes n.toNat data
  | .hash => 0#128

/-- The canonical command word (30_encoding.md R70, R75). -/
def encode (i : Instr) : CmdWord := makeWord i.header i.payload

/-- A word is canonical when its header is legal and every bit its format marks ignored is 0 (30_encoding.md R67 to R71). -/
def isCanonical (w : CmdWord) : Bool :=
  if headerOf w = 0x00#8 then decide ((payloadPart w).extractLsb' 32 96 = 0#96)
  else if headerOf w = 0x40#8 then true
  else if (headerOf w).extractLsb' 4 4 = 0x8#4 then
    decide (Machine.maskLanes (nField (headerOf w)).toNat (payloadPart w) = payloadPart w)
  else if headerOf w = 0xC0#8 then decide (payloadPart w = 0#128)
  else false

/-- The `match` of a command's row in spec/opcode_table.json. -/
def tableMatch : Instr → CmdWord
  | .reset _ => 0x0000000000000000000000000000000000#136
  | .block _ _ => 0x4000000000000000000000000000000000#136
  | .tail _ _ => 0x8000000000000000000000000000000000#136
  | .hash => 0xc000000000000000000000000000000000#136

/-- The `mask` of a command's row in spec/opcode_table.json. -/
def tableMask : Instr → CmdWord
  | .reset _ => 0xff00000000000000000000000000000000#136
  | .block _ _ => 0xff00000000000000000000000000000000#136
  | .tail _ _ => 0xf000000000000000000000000000000000#136
  | .hash => 0xff00000000000000000000000000000000#136

/-- The byte-serial image of a word: `HDR`, then lanes 0 to 15 (30_encoding.md R63). -/
def imageOf (w : CmdWord) : List Byte := headerOf w :: Machine.lanesOf (payloadPart w)

/-- The image of a program: the images of its words, one after another (30_encoding.md R63). -/
def programImage (ws : List CmdWord) : List Byte := ws.flatMap imageOf

/-- The word an image stands for: byte 0 is the header, the bytes after it the lanes (30_encoding.md R63). -/
def wordOfImage (bs : List Byte) : Option CmdWord :=
  match bs with
  | [] => none
  | hdr :: lanes => if lanes.length = 16 then some (makeWord hdr (Machine.payloadOf lanes)) else none

/-- Read the command at the front of a program image. -/
def decodeImage (bs : List Byte) : ImageRead :=
  match wordOfImage (bs.take 17) with
  | some w => .word (decode w) (bs.drop 17)
  | none => .tooShort bs.length

/-- The words of a program image, read from the front; `none` where a partial image is left. The first argument bounds how
many images are read. -/
def wordsOfImage : Nat → List Byte → Option (List CmdWord)
  | _, [] => some []
  | 0, _ :: _ => none
  | fuel + 1, b :: bs =>
    match wordOfImage ((b :: bs).take 17) with
    | none => none
    | some w => (wordsOfImage fuel ((b :: bs).drop 17)).map (w :: ·)

/-- The host's reading of a table row: the word whose low `nbits` bits are `w` and whose other bits are 0
(notes/assumptions/13.md). `none` where the header is illegal, or where `nbits` is more than a command word has. -/
def decodeTableWord (nbits w : Nat) : Option Instr :=
  if nbits ≤ 136 then
    match decode (BitVec.ofNat 136 (w % 2 ^ nbits)) with
    | .command i => some i
    | .illegal _ => none
  else none

end Sys2Proof
end

