-- ==== Sys2Proof/Config.lean ====
section
/-! DEFINITION. The parameters an instance of the block is built with (00_scope.md R6: the model arguments). -/

namespace Sys2Proof

/-- `SEED_EXT`: how the 32-bit seed is widened to 64 bits (00_scope.md R6, 40_reset.md R90). -/
inductive SeedExt where
  | sign
  | zero
  deriving DecidableEq, Repr

/-- `RSP_DEPTH`: the capacity of the response queue, any integer >= 1, or unbounded (00_scope.md R6, 10_state.md R27). -/
inductive RspDepth where
  | unbounded
  | slots (n : Nat)
  deriving DecidableEq, Repr

/-- What is fixed when an instance is built, before hardware reset (70_reset_and_hazards.md R222).
`State` carries one of these and no step writes it (notes/assumptions/1.md). -/
structure Config where
  /-- `SEED_EXT`. -/
  seedExt : SeedExt
  /-- `RSP_DEPTH`. -/
  rspDepth : RspDepth
  /-- Whether a full response queue holds off every command, or HASH only (10_state.md R27,
  93_implementation_defined.md U8; notes/assumptions/3.md). -/
  holdAll : Bool
  deriving DecidableEq, Repr

/-- The instance `State.reset` describes: `SEED_EXT = sign` is the spec's default (00_scope.md R6); the unbounded queue and
`holdAll = false` are DESIGN CHOICE (notes/assumptions/2.md, notes/assumptions/3.md). -/
def Config.default : Config := { seedExt := .sign, rspDepth := .unbounded, holdAll := false }

/-- The capacity is at least 1 (10_state.md R27). -/
def Config.wf (c : Config) : Bool :=
  match c.rspDepth with
  | .unbounded => true
  | .slots n => decide (1 ≤ n)

end Sys2Proof
end

