-- ==== Sys2Proof/Machine/State.lean ====
section
/-! DEFINITION. The state of the block (10_state.md), the host agent beside it (70_reset_and_hazards.md R232), the state after
hardware reset (10_state.md R31), and the names under which a step may stop. -/

namespace Sys2Proof.Machine

/-- The hasher state, the triple `(h1, h2, length)` (00_scope.md R13). -/
structure Hasher where
  h1 : BitVec 64
  h2 : BitVec 64
  length : BitVec 64
  deriving DecidableEq, Repr

/-- One event of the interleaving of host and core: the host's moves of 70_reset_and_hazards.md R232, the core's own step, and
an edge on which the core holds `CMD_READY` at 0. `accept`, `take` and `wait` are clock edges; `issue` and `observe` fall between
edges (notes/assumptions/4.md, notes/assumptions/21.md). -/
inductive Move where
  /-- The host puts a word behind those it is already offering (R232 row 1). -/
  | issue (w : CmdWord)
  /-- A clock edge on which the core takes the offered word if it can (30_encoding.md R65). -/
  | accept
  /-- A clock edge on which the host takes a digest if there is one (R232 row 2, 30_encoding.md R66). -/
  | take
  /-- The event on `RST` (R232 row 3, 70_reset_and_hazards.md R220). -/
  | hardReset
  /-- The host reads the status outputs (R232 row 4). -/
  | observe
  /-- A clock edge on which the core holds `CMD_READY` at 0, as it may for any finite time (30_encoding.md R65): no handshake. -/
  | wait
  deriving DecidableEq, Repr

/-- Everything the model knows at a step boundary. The first six fields are the state the spec gives the block; the other four
are the instance's parameters and the host agent (notes/assumptions/1.md, notes/assumptions/4.md). -/
structure State where
  /-- Mixing word `h1` (10_state.md R20). -/
  h1 : BitVec 64
  /-- Mixing word `h2` (10_state.md R20). -/
  h2 : BitVec 64
  /-- The byte counter (10_state.md R21). -/
  length : BitVec 64
  /-- The status register `fault` (10_state.md R26). -/
  fault : Bool
  /-- The status register `fault_info`, field `hdr` (10_state.md R26). -/
  faultInfo : BitVec 8
  /-- The response queue `rsp_q`, oldest digest first (10_state.md R27). -/
  rspQ : List (BitVec 128)
  /-- The parameters the instance was built with; no step writes them (00_scope.md R6). -/
  cfg : Config
  /-- Host: the words it offers, the one on `CMD` first (30_encoding.md R65). -/
  cmds : List (BitVec 136)
  /-- Host: the digests it has taken, in order (10_state.md R33, 70_reset_and_hazards.md R231). -/
  taken : List (BitVec 128)
  /-- Who moves next, in order; when it runs out the core takes words as it can (notes/assumptions/4.md). -/
  sched : List Move
  deriving DecidableEq, Repr

/-- The one reason a step stops with a fault. The fault of the spec, IllegalCommand, is not one of these: the machine takes it
and goes on to a next state (60_exceptions.md R190; notes/assumptions/6.md). -/
inductive Fault where
  /-- The document's assertion on the tail length (42_tail_finalizer.md R126, 93_implementation_defined.md U11). Raised by
  TAIL's meaning for a count outside 0 to 15, which the four bits of `N` cannot hold: no state raises it. Safe
  (notes/assumptions/11.md). -/
  | tailLength
  deriving DecidableEq, Repr

/-- The reasons a step is refused. -/
inductive Refusal where
  /-- Raised by an arm of `exec` for an instruction that has no meaning; no arm does. Safe. -/
  | notModelled (mnemonic : String)
  deriving DecidableEq, Repr

/-- The machine right after hardware reset (10_state.md R31), with the default parameters and a host that has done nothing
(notes/assumptions/13.md). -/
def State.reset : State :=
  { h1 := 0#64
    h2 := 0#64
    length := 0#64
    fault := false
    faultInfo := 0x00#8
    rspQ := []
    cfg := Config.default
    cmds := []
    taken := []
    sched := [] }

end Sys2Proof.Machine
end

