-- ==== Sys2Proof/Machine/Ops.lean ====
section
/-! DEFINITION. The named operations on state: the hasher triple, the response queue, taking the IllegalCommand fault, hardware
reset, and the host's operations. There is no memory and no register file to address (20_memory.md R40, 10_state.md R20). -/

namespace Sys2Proof.Machine

/-- Read of the hasher triple. -/
def hasherOf (s : State) : Hasher := { h1 := s.h1, h2 := s.h2, length := s.length }

/-- Write of the hasher triple: all writes of one step take effect together (00_scope.md R11). -/
def setHasher (h : Hasher) (s : State) : State := { s with h1 := h.h1, h2 := h.h2, length := h.length }

/-- `rsp_push(d)`: append at the tail of the response queue (00_scope.md R11). -/
def rspPush (d : RspWord) (s : State) : State := { s with rspQ := s.rspQ ++ [d] }

/-- The host takes the head of the response queue, if there is one (30_encoding.md R66). With an empty queue `RSP_VALID` is 0
and no handshake happens. -/
def takeDigest (s : State) : State :=
  match s.rspQ with
  | [] => s
  | d :: rest => { s with rspQ := rest, taken := s.taken ++ [d] }

/-- Taking the one exception: `raise IllegalCommand(hdr)` (60_exceptions.md R190). Nothing else is saved or changed
(60_exceptions.md R192), and nothing returns from it but hardware reset (60_exceptions.md R194). -/
def raiseIllegalCommand (hdr : BitVec 8) (s : State) : State := { s with fault := true, faultInfo := hdr }

/-- Hardware reset (10_state.md R31, 70_reset_and_hazards.md R220). The words the host offers, the digests it has taken and the
parameters are not the block's state and stay (notes/assumptions/8.md). -/
def hardwareReset (s : State) : State :=
  { s with h1 := 0#64, h2 := 0#64, length := 0#64, fault := false, faultInfo := 0x00#8, rspQ := [] }

/-- The words the host still offers are `ws`. -/
def withCmds (ws : List CmdWord) (s : State) : State := { s with cmds := ws }

/-- The events still to come are `rest`. -/
def withSched (rest : List Move) (s : State) : State := { s with sched := rest }

/-- The host offers one more word, after those it offers already (70_reset_and_hazards.md R232 row 1). -/
def issueWord (w : CmdWord) (s : State) : State := { s with cmds := s.cmds ++ [w] }

end Sys2Proof.Machine
end

