-- ==== Sys2Proof/Machine/AvalancheDiffuser.lean ====
section
/-! DEFINITION. Sub-block `avalanche_diffuser` (00_scope.md R2): `fmix64`, `finalize` and the command HASH
(43_avalanche_diffuser.md). -/

namespace Sys2Proof.Machine

/-- One XOR-shift, `k ^ (k >>> 33)`, with the logical shift (43_avalanche_diffuser.md R140). -/
def xorShift (k : Word) : Word := k ^^^ (k >>> fmixShift)

/-- `fmix64(k)`: three XOR-shifts and two multiplications (43_avalanche_diffuser.md R140, 90_conflicts.md C1). -/
def fmix64 (k : Word) : Word := xorShift (xorShift (xorShift k * constF1) * constF2)

/-- The pre-additions of `finalize`: `(b1, b2)`, where `b2` uses the new first word (43_avalanche_diffuser.md R141). -/
def finalizeInject (h1 h2 length : Word) : Word × Word :=
  ((h1 ^^^ length) + (h2 ^^^ length), (h2 ^^^ length) + ((h1 ^^^ length) + (h2 ^^^ length)))

/-- `finalize(h1, h2, length)`: the digest pair `(h1', h2')` (43_avalanche_diffuser.md R141). -/
def finalize (h1 h2 length : Word) : Word × Word :=
  (fmix64 (finalizeInject h1 h2 length).1 + fmix64 (finalizeInject h1 h2 length).2,
   fmix64 (finalizeInject h1 h2 length).2
     + (fmix64 (finalizeInject h1 h2 length).1 + fmix64 (finalizeInject h1 h2 length).2))

/-- `RSP = {h1', h2'}`, what HASH emits (43_avalanche_diffuser.md R142, 20_memory.md R45). -/
def digestOf (h : Hasher) : RspWord :=
  cat64 (finalize h.h1 h.h2 h.length).1 (finalize h.h1 h.h2 h.length).2

/-- HASH (43_avalanche_diffuser.md R142). Whether there is room in `rsp_q` is decided when the word is accepted
(`acceptsWord`; notes/assumptions/7.md). -/
def execHash (s : State) : Host.Outcome State Fault Refusal :=
  .next (rspPush (digestOf (hasherOf s)) s)

end Sys2Proof.Machine
end

