-- ==== Sys2Proof/Machine/Operands.lean ====
section
/-! DEFINITION. Operand assembly (30_encoding.md R72): `seed_ext` for RESET, `tailK` for TAIL, and the payload a command carries
for given bytes. BLOCK's operands are plain slices and HASH has none. -/

namespace Sys2Proof.Machine

/-- `seed_ext(SEED)` (40_reset.md R90). -/
def seedExt (ext : SeedExt) (seed : BitVec 32) : Word :=
  match ext with
  | .sign => sext64 seed
  | .zero => zext64 seed

/-- `tailK(N, DATA)`: the payload with every lane `i >= N` zero, split as for BLOCK (42_tail_finalizer.md R120). -/
def tailK (n : Nat) (data : Payload) : Word × Word :=
  (lowHalf (maskLanes n data), highHalf (maskLanes n data))

end Sys2Proof.Machine
end

