-- ==== Sys2Proof/Machine/BlockMixer.lean ====
section
/-! DEFINITION. Sub-block `block_mixer` (00_scope.md R2): `mixK1`, `mixK2`, `bmix64` and the command BLOCK (41_block_mixer.md). -/

namespace Sys2Proof.Machine

/-- `mixK1(k)` (41_block_mixer.md R100). -/
def mixK1 (k : Word) : Word := rotl64 (k * constC1) 31 * constC2

/-- `mixK2(k)` (41_block_mixer.md R101). -/
def mixK2 (k : Word) : Word := rotl64 (k * constC2) 33 * constC1

/-- The first half of `bmix64`: the new `h1` (41_block_mixer.md R102). -/
def bmixFirst (h1 h2 k1 : Word) : Word := (rotl64 (h1 ^^^ mixK1 k1) 27 + h2) * blockMul + constN1

/-- The second half of `bmix64`: the new `h2`, from the NEW `h1` (41_block_mixer.md R102). -/
def bmixSecond (h1New h2 k2 : Word) : Word := (rotl64 (h2 ^^^ mixK2 k2) 31 + h1New) * blockMul + constN2

/-- `bmix64(h1, h2, k1, k2)` (41_block_mixer.md R102). -/
def bmix64 (h1 h2 k1 k2 : Word) : Word × Word :=
  (bmixFirst h1 h2 k1, bmixSecond (bmixFirst h1 h2 k1) h2 k2)

/-- What BLOCK does to the hasher triple (41_block_mixer.md R103). -/
def blockHasher (k1 k2 : Word) (h : Hasher) : Hasher :=
  { h1 := (bmix64 h.h1 h.h2 k1 k2).1, h2 := (bmix64 h.h1 h.h2 k1 k2).2, length := h.length + 16#64 }

/-- BLOCK (41_block_mixer.md R103). -/
def execBlock (k1 k2 : Word) (s : State) : Host.Outcome State Fault Refusal :=
  .next (setHasher (blockHasher k1 k2 (hasherOf s)) s)

end Sys2Proof.Machine
end

