-- ==== Sys2Proof/Machine/ResetCommand.lean ====
section
/-! DEFINITION. The RESET command, the seed load of the enclosing core (40_reset.md). -/

namespace Sys2Proof.Machine

/-- `S0(seed)`, the hasher state RESET leaves (40_reset.md R91, 44_include.md R161). -/
def seedHasher (ext : SeedExt) (seed : BitVec 32) : Hasher :=
  { h1 := seedExt ext seed, h2 := seedExt ext seed, length := 0#64 }

/-- RESET (40_reset.md R91). -/
def execReset (seed : BitVec 32) (s : State) : Host.Outcome State Fault Refusal :=
  .next (setHasher (seedHasher s.cfg.seedExt seed) s)

end Sys2Proof.Machine
end

