-- ==== Sys2Proof/Machine/TailFinalizer.lean ====
section
/-! DEFINITION. Sub-block `tail_finalizer` (00_scope.md R2): the XOR-only update and the command TAIL (42_tail_finalizer.md). -/

namespace Sys2Proof.Machine

/-- What TAIL does to the hasher triple: XOR only, no rotation and no addition (42_tail_finalizer.md R121, R122). -/
def tailHasher (n : BitVec 4) (data : Payload) (h : Hasher) : Hasher :=
  { h1 := h.h1 ^^^ mixK1 (tailK n.toNat data).1
    h2 := h.h2 ^^^ mixK2 (tailK n.toNat data).2
    length := h.length + zext64 n }

/-- TAIL (42_tail_finalizer.md R121), with the document's assertion that the tail length is 0 to 15 (42_tail_finalizer.md R126;
notes/assumptions/11.md). -/
def execTail (n : BitVec 4) (data : Payload) (s : State) : Host.Outcome State Fault Refusal :=
  if n.toNat ≤ 15 then .next (setHasher (tailHasher n data (hasherOf s)) s) else .fault .tailLength

end Sys2Proof.Machine
end

