-- ==== Sys2Proof/Machine/Dispatch.lean ====
section
/-! DEFINITION. The execution of one accepted command (00_scope.md R8), one arm per command. -/

namespace Sys2Proof.Machine

/-- The effect of an accepted command word. Whether a word is accepted is `acceptsWord`'s business. -/
def exec (i : Instr) (s : State) : Host.Outcome State Fault Refusal :=
  match i with
  | .reset seed => Sys2Proof.Machine.execReset seed s
  | .block k1 k2 => Sys2Proof.Machine.execBlock k1 k2 s
  | .tail n data => Sys2Proof.Machine.execTail n data s
  | .hash => Sys2Proof.Machine.execHash s

end Sys2Proof.Machine
end

