-- ==== Sys2Proof/Machine/Channel.lean ====
section
/-! DEFINITION. The command channel: when a word is accepted (30_encoding.md R65, 10_state.md R27), what accepting it does, and the
interleaving of the core with the host (70_reset_and_hazards.md R232). `step` only calls `agentStep`. -/

namespace Sys2Proof.Machine

/-- `rsp_q` is full (10_state.md R27). -/
def rspFull (s : State) : Bool :=
  match s.cfg.rspDepth with
  | .unbounded => false
  | .slots n => decide (n ≤ s.rspQ.length)

/-- The word is a HASH command (30_encoding.md R73). -/
def isHashWord (w : CmdWord) : Bool := headerOf w == 0xC0#8

/-- Back-pressure: a full queue holds off HASH, and every word where the instance is built so (10_state.md R27,
70_reset_and_hazards.md R228, 93_implementation_defined.md U8). -/
def heldByQueue (s : State) (w : CmdWord) : Bool := rspFull s && (s.cfg.holdAll || isHashWord w)

/-- The core takes `w` when it is offered: not in the fault state (60_exceptions.md R193) and not under back-pressure. -/
def acceptsWord (s : State) (w : CmdWord) : Bool := !s.fault && !heldByQueue s w

/-- The execution of an accepted word: the command it decodes to, or the IllegalCommand fault (00_scope.md R8, 30_encoding.md
R74, 60_exceptions.md R190). -/
def executeWord (w : CmdWord) (s : State) : Host.Outcome State Fault Refusal :=
  match decode w with
  | .command i => exec i s
  | .illegal hdr => .next (raiseIllegalCommand hdr s)

/-- The core's turn. It takes the offered word if it can; a word it cannot take stays offered, and with none offered the core is
idle and changes nothing (30_encoding.md R65, 60_exceptions.md R206; notes/assumptions/5.md). -/
def coreStep (s : State) : Host.Outcome State Fault Refusal :=
  match s.cmds with
  | [] => .next s
  | w :: ws => if acceptsWord s w then executeWord w (withCmds ws s) else .next s

/-- What one event of the interleaving does (70_reset_and_hazards.md R232). -/
def runMove (m : Move) (s : State) : Host.Outcome State Fault Refusal :=
  match m with
  | .issue w => .next (issueWord w s)
  | .accept => coreStep s
  | .take => .next (takeDigest s)
  | .hardReset => .next (hardwareReset s)
  | .observe => .next s
  | .wait => .next s

/-- One step: the next event of the schedule, or the core's turn when none is listed. -/
def agentStep (s : State) : Host.Outcome State Fault Refusal :=
  match s.sched with
  | [] => coreStep s
  | m :: rest => runMove m (withSched rest s)

end Sys2Proof.Machine
end

