-- ==== Sys2Proof/Machine/Step.lean ====
section
/-! DEFINITION. One step of the machine, and the host's way to hand it one command word. -/

namespace Sys2Proof.Machine

/-- One step (00_scope.md R8). -/
def step (s : State) : Host.Outcome State Fault Refusal := agentStep s

/-- `s` with the word whose low `nbits` bits are `w` offered first on `CMD`, and the next turn the core's
(notes/assumptions/13.md). -/
def State.withFetchWord (s : State) (nbits w : Nat) : State :=
  { s with cmds := BitVec.ofNat 136 (w % 2 ^ nbits) :: s.cmds, sched := Move.accept :: s.sched }

end Sys2Proof.Machine
end

