-- ==== Sys2Proof/Machine/Session.lean ====
section
/-! DEFINITION. The host's pseudo-instruction INCLUDE (44_include.md): the reads of its buffer, the expansion into commands, INCLUDE as
a function on the hasher state, sessions, and command sequences. -/

namespace Sys2Proof.Machine

/-- `MemRead(off, n)`: the `n` bytes at offset `off` of the call's buffer (00_scope.md R11). -/
def memRead (buf : List Byte) (off n : Nat) : List Byte := (buf.drop off).take n

/-- The BLOCK command whose lanes are the bytes `c` (44_include.md R160). -/
def blockOfBytes (c : List Byte) : Instr := .block (lowHalf (payloadOf c)) (highHalf (payloadOf c))

/-- The TAIL command for the tail bytes `t`, at most 15 of them (44_include.md R160). -/
def tailOfBytes (t : List Byte) : Instr := .tail (BitVec.ofNat 4 t.length) (payloadOf t)

/-- `q` iterations of the expansion's loop, the first at offset `off` (44_include.md R160). -/
def includeBlocks (buf : List Byte) (off : Nat) : Nat → List Instr
  | 0 => []
  | q + 1 => blockOfBytes (memRead buf off 16) :: includeBlocks buf (off + 16) q

/-- The expansion of `INCLUDE buf`: a BLOCK while at least 16 bytes remain, then one TAIL with the rest (44_include.md R160,
30_encoding.md R78). -/
def includeInstrs (buf : List Byte) : List Instr :=
  includeBlocks buf 0 (buf.length / 16) ++ [tailOfBytes (memRead buf (16 * (buf.length / 16)) (buf.length % 16))]

/-- The command words the host issues for `INCLUDE buf`: canonical words (30_encoding.md R70, R78). -/
def includeWords (buf : List Byte) : List CmdWord := (includeInstrs buf).map encode

/-- `blk(S, c)` (44_include.md R161). -/
def blk (h : Hasher) (c : List Byte) : Hasher := blockHasher (lowHalf (payloadOf c)) (highHalf (payloadOf c)) h

/-- `tl(S, t)` (44_include.md R161). -/
def tl (h : Hasher) (t : List Byte) : Hasher := tailHasher (BitVec.ofNat 4 t.length) (payloadOf t) h

/-- `include(S, b)`: `blk` over the slices `b[16j..16j+16)`, then `tl` over the rest (44_include.md R161). -/
def includeHasher (h : Hasher) (b : List Byte) : Hasher :=
  tl ((List.range (b.length / 16)).foldl (fun g j => blk g (memRead b (16 * j) 16)) h)
    (memRead b (16 * (b.length / 16)) (b.length % 16))

/-- `session(seed, [b_1, ..., b_m])` (44_include.md R161). -/
def session (ext : SeedExt) (seed : BitVec 32) (bs : List (List Byte)) : Hasher :=
  bs.foldl includeHasher (seedHasher ext seed)

/-- `hash128(seed, b)`, the one-shot hash (44_include.md R161). -/
def hash128 (ext : SeedExt) (seed : BitVec 32) (b : List Byte) : RspWord :=
  digestOf (includeHasher (seedHasher ext seed) b)

/-- The words of a one-shot hash: RESET, the words of INCLUDE, HASH (44_include.md R161). -/
def oneShotWords (seed : BitVec 32) (b : List Byte) : List CmdWord :=
  encode (.reset seed) :: (includeWords b ++ [encode .hash])

/-- A sequence of accepted commands, executed in order (20_memory.md R51). -/
def runInstrs : List Instr → State → Host.Outcome State Fault Refusal
  | [], s => .next s
  | i :: is, s =>
    match exec i s with
    | .next t => runInstrs is t
    | .fault r => .fault r
    | .refused r => .refused r

/-- The input bytes a command counts: 16 for BLOCK, `N` for TAIL (10_state.md R22). -/
def bytesOf : Instr → Nat
  | .reset _ => 0
  | .block _ _ => 16
  | .tail n _ => n.toNat
  | .hash => 0

/-- The input bytes a command carries, in buffer order (20_memory.md R41, R48). -/
def inputBytes : Instr → List Byte
  | .reset _ => []
  | .block k1 k2 => lanesOf (cat64 k2 k1)
  | .tail n data => (lanesOf data).take n.toNat
  | .hash => []

end Sys2Proof.Machine
end

