-- ==== Sys2Proof/Machine/Assembler.lean ====
section
/-! DEFINITION. The assembler (30_encoding.md R77, R78): its lines, the commands they stand for, and the reading of a line of text.
Its text conventions beyond R77's words are in notes/assumptions/16.md. -/

namespace Sys2Proof.Machine

/-- One line of assembler: a command or the pseudo-instruction INCLUDE (30_encoding.md R77, R78). -/
inductive AsmLine where
  | reset (seed : Int)
  | block (bytes : List Byte)
  | tail (bytes : List Byte)
  | hash
  | includeBytes (bytes : List Byte)
  deriving DecidableEq, Repr

/-- The commands a line stands for; `none` where an operand is outside its range (30_encoding.md R77). -/
def assembleInstrs : AsmLine → Option (List Instr)
  | .reset seed => if -2147483648 ≤ seed ∧ seed ≤ 4294967295 then some [.reset (BitVec.ofInt 32 seed)] else none
  | .block bytes => if bytes.length = 16 then some [blockOfBytes bytes] else none
  | .tail bytes => if bytes.length ≤ 15 then some [tailOfBytes bytes] else none
  | .hash => some [.hash]
  | .includeBytes bytes => some (includeInstrs bytes)

/-- The words a line assembles to: canonical words (30_encoding.md R70, R77). -/
def assembleLine (l : AsmLine) : Option (List CmdWord) := (assembleInstrs l).map (fun is => is.map encode)

/-- A lexical unit of a line: a run of characters, or the characters of a string literal. -/
inductive AsmToken where
  | bare (chars : List Char)
  | quoted (chars : List Char)
  deriving DecidableEq, Repr

/-- Where the lexer stands: between units, inside a run of characters, or inside a string literal (characters reversed). -/
inductive LexState where
  | gap
  | inBare (acc : List Char)
  | inQuoted (acc : List Char)
  deriving DecidableEq, Repr

/-- A space or a tab. -/
def isBlank (c : Char) : Bool := c == ' ' || c == '\t'

/-- The units of a line; `;` outside a string literal starts a comment (30_encoding.md R77). `none` for an unclosed string or
one that touches a run of characters before it. -/
def lexLine : LexState → List Char → Option (List AsmToken)
  | .gap, [] => some []
  | .gap, c :: cs =>
    if isBlank c then lexLine .gap cs
    else if c == ';' then some []
    else if c == '"' then lexLine (.inQuoted []) cs
    else lexLine (.inBare [c]) cs
  | .inBare acc, [] => some [.bare acc.reverse]
  | .inBare acc, c :: cs =>
    if isBlank c then (lexLine .gap cs).map (.bare acc.reverse :: ·)
    else if c == ';' then some [.bare acc.reverse]
    else if c == '"' then none
    else lexLine (.inBare (c :: acc)) cs
  | .inQuoted _, [] => none
  | .inQuoted acc, c :: cs =>
    if c == '"' then (lexLine .gap cs).map (.quoted acc.reverse :: ·)
    else lexLine (.inQuoted (c :: acc)) cs

/-- The value of a hexadecimal digit, either case. -/
def hexValue (c : Char) : Option Nat :=
  if 48 ≤ c.toNat ∧ c.toNat ≤ 57 then some (c.toNat - 48)
  else if 97 ≤ c.toNat ∧ c.toNat ≤ 102 then some (c.toNat - 87)
  else if 65 ≤ c.toNat ∧ c.toNat ≤ 70 then some (c.toNat - 55)
  else none

/-- The value of a decimal digit. -/
def decValue (c : Char) : Option Nat := if 48 ≤ c.toNat ∧ c.toNat ≤ 57 then some (c.toNat - 48) else none

/-- The number a list of digits stands for after the digits of `acc`. -/
def digitsFrom (value : Char → Option Nat) (base : Nat) : Nat → List Char → Option Nat
  | acc, [] => some acc
  | acc, c :: cs => (value c).bind (fun v => digitsFrom value base (acc * base + v) cs)

/-- A natural number: decimal digits, or `0x` and hexadecimal digits. -/
def readNat : List Char → Option Nat
  | [] => none
  | '0' :: 'x' :: c :: cs => digitsFrom hexValue 16 0 (c :: cs)
  | c :: cs => digitsFrom decValue 10 0 (c :: cs)

/-- A seed: an integer, with an optional minus sign (30_encoding.md R77). -/
def readSeed : List Char → Option Int
  | '-' :: cs => (readNat cs).map (fun n => -(Int.ofNat n))
  | cs => (readNat cs).map Int.ofNat

/-- A byte value, one or two hexadecimal digits (30_encoding.md R77). -/
def readByte (cs : List Char) : Option Byte :=
  if cs.length = 1 ∨ cs.length = 2 then (digitsFrom hexValue 16 0 cs).map (BitVec.ofNat 8) else none

/-- The ASCII bytes of a string literal; `none` where a character is not ASCII (30_encoding.md R77). -/
def asciiBytes : List Char → Option (List Byte)
  | [] => some []
  | c :: cs => if c.toNat ≤ 127 then (asciiBytes cs).map (BitVec.ofNat 8 c.toNat :: ·) else none

/-- A list of byte values. -/
def readByteList : List AsmToken → Option (List Byte)
  | [] => some []
  | .bare cs :: ts => (readByte cs).bind (fun b => (readByteList ts).map (b :: ·))
  | .quoted _ :: _ => none

/-- Byte operands: one string literal, or a list of byte values (30_encoding.md R77, R78). -/
def readBytes : List AsmToken → Option (List Byte)
  | [.quoted cs] => asciiBytes cs
  | ts => readByteList ts

/-- The line a list of units stands for; `some none` for a line without a command (30_encoding.md R77, R78). -/
def readTokens : List AsmToken → Option (Option AsmLine)
  | [] => some none
  | .quoted _ :: _ => none
  | .bare m :: ts =>
    if m = ['R', 'E', 'S', 'E', 'T'] then
      match ts with
      | [.bare cs] => (readSeed cs).map (fun n => some (.reset n))
      | _ => none
    else if m = ['B', 'L', 'O', 'C', 'K'] then (readBytes ts).map (fun bs => some (.block bs))
    else if m = ['T', 'A', 'I', 'L'] then (readBytes ts).map (fun bs => some (.tail bs))
    else if m = ['H', 'A', 'S', 'H'] then (if ts = [] then some (some .hash) else none)
    else if m = ['I', 'N', 'C', 'L', 'U', 'D', 'E'] then (readBytes ts).map (fun bs => some (.includeBytes bs))
    else none

/-- A line of text. -/
def readLine (cs : List Char) : Option (Option AsmLine) := (lexLine .gap cs).bind readTokens

/-- The words of a line of text; `none` for a line the syntax does not have. -/
def assembleText (cs : List Char) : Option (List CmdWord) :=
  match readLine cs with
  | none => none
  | some none => some []
  | some (some l) => assembleLine l

/-- The words of a program, one line after another; `none` if a line does not assemble. -/
def assembleProgram : List (List Char) → Option (List CmdWord)
  | [] => some []
  | l :: ls => (assembleText l).bind (fun ws => (assembleProgram ls).map (ws ++ ·))

end Sys2Proof.Machine
end

