-- ==== Sys2Proof/Machine/DigestViews.lean ====
section
/-! DEFINITION. The four views of a digest, pure functions of `h1'` and `h2'` (45_digest_views.md). -/

namespace Sys2Proof.Machine

/-- The eight bytes of a word, most significant first: byte `j` is `v[63-8*j : 56-8*j]` (45_digest_views.md R180). -/
def bytesBE (v : Word) : List Byte := (List.range 8).map (fun j => v.extractLsb' (56 - 8 * j) 8)

/-- `toBigEndianBytes(h1', h2')` (45_digest_views.md R180). -/
def toBigEndianBytes (h1 h2 : Word) : List Byte := bytesBE h1 ++ bytesBE h2

/-- `toLittleEndianBytes(h1', h2')`: `E[j] = B[15-j]` (45_digest_views.md R181). -/
def toLittleEndianBytes (h1 h2 : Word) : List Byte := (toBigEndianBytes h1 h2).reverse

/-- `toBigInteger(h1', h2')` (45_digest_views.md R182). -/
def toBigInteger (h1 h2 : Word) : Nat := h1.toNat * 2 ^ 64 + h2.toNat

/-- The digits `0-9a-f` (45_digest_views.md R183). -/
def hexDigits : List Char := ['0', '1', '2', '3', '4', '5', '6', '7', '8', '9', 'a', 'b', 'c', 'd', 'e', 'f']

/-- The lower-case hexadecimal digit of a value below 16. -/
def hexDigit (v : Nat) : Char := hexDigits.getD v '0'

/-- The two characters of a byte, the high digit first. -/
def hexOfByte (b : Byte) : List Char := [hexDigit (b.toNat / 16), hexDigit (b.toNat % 16)]

/-- The 32 characters of `toHexString(h1', h2')` (45_digest_views.md R183). -/
def hexChars (h1 h2 : Word) : List Char := (toBigEndianBytes h1 h2).flatMap hexOfByte

/-- `toHexString(h1', h2')` (45_digest_views.md R183). -/
def toHexString (h1 h2 : Word) : String := String.ofList (hexChars h1 h2)

end Sys2Proof.Machine
end

