-- ==== Sys2Proof/Machine/Flags.lean ====
section
/-! DEFINITION. Flags. No command records anything about an arithmetic result (10_state.md R25): there is no flag computation.
The one status flag is `fault`; here are its two outputs and the condition it puts on acceptance. -/

namespace Sys2Proof.Machine

/-- The output `FAULT`, the level of the register `fault` (30_encoding.md R64, 60_exceptions.md R193). -/
def portFault (s : State) : BitVec 1 := BitVec.ofBool s.fault

/-- The output `FAULT_INFO`, the register `fault_info` (30_encoding.md R64). -/
def portFaultInfo (s : State) : BitVec 8 := s.faultInfo

/-- The cause number of 60_exceptions.md R190: 1 for IllegalCommand, 0 for no fault. -/
def faultCause (s : State) : Nat := if s.fault then 1 else 0

end Sys2Proof.Machine
end

