-- ==== Sys2Proof/Machine/Ports.lean ====
section
/-! DEFINITION. The ports of the block as functions of the state (30_encoding.md R64), each showing its level until the next clock
edge, and what the host can observe (10_state.md R33). -/

namespace Sys2Proof.Machine

/-- `CMD_VALID`: the host offers a word (30_encoding.md R64). -/
def portCmdValid (s : State) : BitVec 1 := BitVec.ofBool (!s.cmds.isEmpty)

/-- The word on `CMD` while `CMD_VALID` is 1 (30_encoding.md R64, R65). -/
def portCmd (s : State) : Option CmdWord := s.cmds.head?

/-- The event at which the levels of now are sampled: the next clock edge, or a hardware reset before it. With no event listed
the next edge is the core's (notes/assumptions/4.md, notes/assumptions/18.md). -/
def nextEdge : List Move → Move
  | [] => .accept
  | .issue _ :: rest => nextEdge rest
  | .observe :: rest => nextEdge rest
  | .accept :: _ => .accept
  | .take :: _ => .take
  | .wait :: _ => .wait
  | .hardReset :: _ => .hardReset

/-- The very next event is a clock edge: a handshake whose two signals are 1 happens in this step (30_encoding.md R65, R66). -/
def atEdge (s : State) : Bool :=
  match s.sched with
  | [] => true
  | .accept :: _ => true
  | .take :: _ => true
  | .wait :: _ => true
  | .issue _ :: _ => false
  | .observe :: _ => false
  | .hardReset :: _ => false

/-- The core could take a word as things stand: the word on `CMD`, or with none there any command that is not HASH
(notes/assumptions/19.md). -/
def canAccept (s : State) : Bool :=
  match s.cmds with
  | [] => !s.fault && !(rspFull s && s.cfg.holdAll)
  | w :: _ => acceptsWord s w

/-- `CMD_READY` (30_encoding.md R64, R65): 1 when at the next clock edge the core takes the word on `CMD`. It is 0 in the fault
state (60_exceptions.md R193), under back-pressure (10_state.md R27), before a `wait` edge, and before an edge that is not the
core's (notes/assumptions/18.md, notes/assumptions/21.md). -/
def portCmdReady (s : State) : BitVec 1 := BitVec.ofBool (decide (nextEdge s.sched = .accept) && canAccept s)

/-- `RSP_VALID`: the response queue is not empty (30_encoding.md R66). -/
def portRspValid (s : State) : BitVec 1 := BitVec.ofBool (!s.rspQ.isEmpty)

/-- `RSP`: the head of the response queue while `RSP_VALID` is 1 (30_encoding.md R66). No rule says what it shows otherwise
(notes/assumptions/19.md). -/
def portRsp (s : State) : Option RspWord := s.rspQ.head?

/-- `RSP_READY`: the host takes the value on `RSP` at the next clock edge (30_encoding.md R64, R66). -/
def portRspReady (s : State) : BitVec 1 := BitVec.ofBool (decide (nextEdge s.sched = .take))

/-- `RST`: the next event is a hardware reset (30_encoding.md R64, 70_reset_and_hazards.md R220). DESIGN CHOICE: the bit is 1 while
the reset is requested; no source gives the port a polarity (notes/assumptions/27.md). -/
def portRst (s : State) : BitVec 1 := BitVec.ofBool (decide (s.sched.head? = some .hardReset))

/-- Everything the host can observe of the block (10_state.md R33). DESIGN CHOICE: the field `rsp`, the untaken head that the
port `RSP` shows (30_encoding.md R64, R66), is in the view although R33 lists the taken values only
(notes/assumptions/25.md). -/
structure HostView where
  taken : List RspWord
  rspValid : BitVec 1
  rsp : Option RspWord
  cmdReady : BitVec 1
  fault : BitVec 1
  faultInfo : BitVec 8
  deriving DecidableEq, Repr

/-- The host's view of a state. `h1`, `h2` and `length` are not in it (10_state.md R33). -/
def hostView (s : State) : HostView :=
  { taken := s.taken
    rspValid := portRspValid s
    rsp := portRsp s
    cmdReady := portCmdReady s
    fault := portFault s
    faultInfo := portFaultInfo s }

end Sys2Proof.Machine
end

