-- ==== Sys2Proof/Safety.lean ====
section
/-! DEFINITION. What the claims speak of: the invariant of the machine, the end of a run, the digests emitted, and the bytes counted
along a run. -/

namespace Sys2Proof.Machine

/-- The fault record says what the spec says it does: 0 without a fault, an illegal header with one (10_state.md R26). -/
def faultRecordOk (s : State) : Bool := if s.fault then !legalHeader s.faultInfo else s.faultInfo == 0x00#8

/-- The response queue never holds more than its capacity (10_state.md R27). -/
def queueWithinDepth (s : State) : Bool :=
  match s.cfg.rspDepth with
  | .unbounded => true
  | .slots n => decide (s.rspQ.length ≤ n)

/-- The invariant every step keeps. -/
def State.inv (s : State) : Bool := s.cfg.wf && faultRecordOk s && queueWithinDepth s

/-- `State.inv` as a proposition. -/
abbrev State.Inv (s : State) : Prop := s.inv = true

/-- Every digest emitted and not discarded: those the host took, then those queued (10_state.md R27, R28). -/
def emitted (s : State) : List RspWord := s.taken ++ s.rspQ

/-- The HASH commands among the words of a program. -/
def hashCount (program : List CmdWord) : Nat := program.countP isHashWord


/-- The 19 legal header values as 30_encoding.md R73 lists them. -/
abbrev ListedHeader (hdr : BitVec 8) : Prop :=
  hdr = 0x00#8 ∨ hdr = 0x40#8 ∨ (0x80#8 ≤ hdr ∧ hdr ≤ 0x8F#8) ∨ hdr = 0xC0#8

/-- The next turn is the core's: an `accept` event, or no event listed. `rest` is the schedule after it. -/
def CoreTurn (s : State) (rest : List Move) : Prop :=
  (s.sched = [] ∧ rest = []) ∨ s.sched = .accept :: rest

/-- The word the next step accepts and executes, if it accepts one (30_encoding.md R65). -/
def acceptedWord (s : State) : Option CmdWord :=
  match s.cmds with
  | [] => none
  | w :: _ => if s.sched.head?.getD .accept = .accept ∧ acceptsWord s w = true then some w else none

/-- The words accepted in the first `k` steps from `s`, in order. -/
def acceptedWords : Nat → State → List CmdWord
  | 0, _ => []
  | k + 1, s =>
    match step s with
    | .next t => (acceptedWord s).toList ++ acceptedWords k t
    | .fault _ => []
    | .refused _ => []

/-- The run of `k` steps from `start` to `s` is a run of `program` to its end (70_reset_and_hazards.md R231): no hardware reset
makes it void, the words accepted are the program's, all of them and no others, there is no fault, and the host has taken as many
digests since `start` as the program has HASH commands. The words still offered are not part of it, as R231 says, and digests
queued before `start` count when they are taken (notes/assumptions/26.md). -/
def RanToEnd (program : List CmdWord) (k : Nat) (start s : State) : Prop :=
  Host.Core.run Sys2Proof.core k start = .next s ∧ Move.hardReset ∉ start.sched.take k ∧
    acceptedWords k start = program ∧ s.fault = false ∧ s.taken.length = start.taken.length + hashCount program

/-- The result of a run (70_reset_and_hazards.md R231): the digests taken, in order, and the final hasher triple. -/
structure RunResult where
  digests : List RspWord
  hasher : Hasher
  deriving DecidableEq, Repr

/-- The result of a run from `start` to `s`. -/
def resultOf (start s : State) : RunResult :=
  { digests := s.taken.drop start.taken.length, hasher := hasherOf s }

/-- No HASH word is offered, nor will the listed events offer one. -/
def NoHashToCome (s : State) : Prop :=
  (∀ w ∈ s.cmds, headerOf w ≠ 0xC0#8) ∧ ∀ w, Move.issue w ∈ s.sched → headerOf w ≠ 0xC0#8

/-- Two states that differ in `h1`, `h2` and `length` at most. -/
def SameButHasher (s u : State) : Prop := ∃ h : Hasher, u = setHasher h s

/-- The command the next step executes, if it executes one. -/
def nextCommand (s : State) : Option Instr :=
  match acceptedWord s with
  | none => none
  | some w =>
    match decode w with
    | .command i => some i
    | .illegal _ => none

/-- The bytes counted after the next step, `base` counted before it: 0 after hardware reset or RESET (10_state.md R22). -/
def countStep (base : Nat) (s : State) : Nat :=
  if s.sched.head? = some .hardReset then 0
  else
    match nextCommand s with
    | none => base
    | some (.reset _) => 0
    | some i => base + bytesOf i

/-- The bytes counted since the last RESET command or hardware reset along `k` steps from `s`, `base` of them before `s`. -/
def countRun : Nat → Nat → State → Nat
  | 0, base, _ => base
  | k + 1, base, s =>
    match step s with
    | .next t => countRun k (countStep base s) t
    | .fault _ => base
    | .refused _ => base

end Sys2Proof.Machine
end

