-- ==== Sys2Proof/Certificates/Slice0/Obligations.lean ====
section
/-! DEFINITION. The statements for the provers, by the files of spec/. Each docstring names the rule it formalises. -/

open Sys2Proof Sys2Proof.Machine

/-! ### Reset (10_state.md section 7, 70_reset_and_hazards.md section 1) -/

/-- 10_state.md R31: hardware reset puts every piece of state to the value in the table, and `(h1, h2, length)` is what RESET
with seed 0 leaves. -/
def Obligations.HardwareResetLeavesTableValues : Prop :=
  (State.reset.h1 = 0x0000000000000000#64 ∧ State.reset.h2 = 0x0000000000000000#64 ∧
    State.reset.length = 0x0000000000000000#64 ∧ State.reset.fault = false ∧ State.reset.faultInfo = 0x00#8 ∧
    State.reset.rspQ = []) ∧
  (∀ (s : State) (rest : List Move), s.sched = .hardReset :: rest → ∃ t, step s = .next t ∧
    t.h1 = 0x0000000000000000#64 ∧ t.h2 = 0x0000000000000000#64 ∧ t.length = 0x0000000000000000#64 ∧
    t.fault = false ∧ t.faultInfo = 0x00#8 ∧ t.rspQ = []) ∧
  (∀ s : State, ∃ t, exec (.reset 0#32) s = .next t ∧ hasherOf t = hasherOf State.reset)

/-- 70_reset_and_hazards.md R220: hardware reset may occur in any state; it forgets all of the block's state; no offered word is
accepted with it; no other step leaves the fault state. -/
def Obligations.HardwareResetForgetsEverything : Prop :=
  (∀ (s : State) (rest : List Move), s.sched = .hardReset :: rest → ∃ t, step s = .next t ∧
    t.h1 = 0#64 ∧ t.h2 = 0#64 ∧ t.length = 0#64 ∧ t.fault = false ∧ t.faultInfo = 0#8 ∧ t.rspQ = [] ∧
    acceptedWord s = none) ∧
  (∀ s u : State, s.cfg = u.cfg → s.cmds = u.cmds → s.taken = u.taken → s.sched = u.sched →
    s.sched.head? = some .hardReset → ∃ t, step s = .next t ∧ step u = .next t) ∧
  (∀ s t : State, step s = .next t → s.fault = true → t.fault = false → s.sched.head? = some .hardReset)

/-! ### The command channel and the decoder (30_encoding.md) -/

/-- The bridge from the per-command statements to runs: on the core's turn, an accepted word that decodes to a command is
removed from the offered words and `exec` of that command is the step. What surrounds `exec` (the event taken off the schedule,
the word taken off the channel) is notes/assumptions/4.md. -/
def Obligations.StepRunsTheDecodedCommand : Prop :=
  ∀ (s : State) (rest : List Move) (w : CmdWord) (ws : List CmdWord) (i : Instr),
    CoreTurn s rest → s.cmds = w :: ws → acceptsWord s w = true → decode w = .command i →
      step s = exec i { s with cmds := ws, sched := rest }

/-- 30_encoding.md R65 over the model's events (notes/assumptions/4.md, 18.md and 21.md): at an edge with `CMD_VALID` and
`CMD_READY` both 1 the word on `CMD` is taken and executed; a step with either of them 0 that is no hardware reset executes
nothing, and a word on `CMD` stays on it; a step accepts a word only so; `CMD_READY` is 0 in the fault state and during hardware
reset; outside the fault state it may be 0 for any number of edges, after which it is 1 again unless the queue holds the word. -/
def Obligations.CommandHandshake : Prop :=
  (∀ s : State, atEdge s = true → portCmdValid s = 1#1 → portCmdReady s = 1#1 →
    ∃ w, portCmd s = some w ∧ acceptedWord s = some w ∧
      step s = executeWord w { s with cmds := s.cmds.tail, sched := s.sched.tail }) ∧
  (∀ s t : State, step s = .next t → ¬ (portCmdValid s = 1#1 ∧ portCmdReady s = 1#1) →
    s.sched.head? ≠ some .hardReset → acceptedWord s = none ∧ hasherOf t = hasherOf s ∧ t.fault = s.fault ∧
      t.faultInfo = s.faultInfo ∧ s.cmds <+: t.cmds ∧ (portCmdValid s = 1#1 → portCmd t = portCmd s)) ∧
  (∀ (s : State) (w : CmdWord), acceptedWord s = some w →
    atEdge s = true ∧ portCmdValid s = 1#1 ∧ portCmdReady s = 1#1 ∧ portCmd s = some w) ∧
  (∀ s : State, s.fault = true → portCmdReady s = 0#1) ∧
  (∀ s : State, portRst s = 1#1 → portCmdReady s = 0#1) ∧
  (∀ (k : Nat) (s : State) (w : CmdWord) (ws : List CmdWord) (rest : List Move), s.fault = false → s.cmds = w :: ws →
    s.sched = List.replicate k .wait ++ rest → nextEdge rest = .accept →
    (∀ i < k, ∃ t, Host.Core.run Sys2Proof.core i s = .next t ∧ portCmd t = some w ∧ portCmdReady t = 0#1) ∧
    ∃ t, Host.Core.run Sys2Proof.core k s = .next t ∧ portCmd t = some w ∧
      (portCmdReady t = 1#1 ↔ heldByQueue t w = false))

/-- 30_encoding.md R73 and R74: the command is selected by the header alone; 19 of the 256 values are legal, and a word has one
of them exactly when it matches a row of the opcode table; 192 values are illegal for `RSV`, 45 for `N`, and a word with one of
these raises IllegalCommand and changes no other state. -/
def Obligations.HeaderSelectsTheCommand : Prop :=
  (∀ w : CmdWord, (headerOf w = 0x00#8 → ∃ seed, decode w = .command (.reset seed)) ∧
    (headerOf w = 0x40#8 → ∃ k1 k2, decode w = .command (.block k1 k2)) ∧
    (∀ n : BitVec 4, headerOf w = 0x8#4 ++ n → ∃ d, decode w = .command (.tail n d)) ∧
    (headerOf w = 0xC0#8 → decode w = .command .hash) ∧
    (¬ ListedHeader (headerOf w) → decode w = .illegal (headerOf w))) ∧
  ((List.range 256).countP (fun h => decide (ListedHeader (BitVec.ofNat 8 h))) = 19) ∧
  ((List.range 256).countP (fun h => rsvField (BitVec.ofNat 8 h) != 0#2) = 192) ∧
  ((List.range 256).countP (fun h => rsvField (BitVec.ofNat 8 h) == 0#2 && opField (BitVec.ofNat 8 h) != 0b10#2
      && nField (BitVec.ofNat 8 h) != 0#4) = 45) ∧
  (∀ h : BitVec 8, ¬ ListedHeader h ↔
    (rsvField h ≠ 0#2 ∨ (rsvField h = 0#2 ∧ opField h ≠ 0b10#2 ∧ nField h ≠ 0#4))) ∧
  (∀ (w : CmdWord) (i : Instr), decode w = .command i → w &&& tableMask i = tableMatch i) ∧
  (∀ w : CmdWord, (∃ i : Instr, w &&& tableMask i = tableMatch i) ↔ ListedHeader (headerOf w)) ∧
  (∀ (w : CmdWord) (s : State), ¬ ListedHeader (headerOf w) →
    executeWord w s = .next { s with fault := true, faultInfo := w.extractLsb' 128 8 })

/-- 30_encoding.md R75: the decoder, its operands as slices of the word; its tests exclude each other; decode of encode is the
command for every command whose TAIL data has zero lanes above the count; encode of decode is the word exactly when the word is
canonical and legal. -/
def Obligations.DecodeEncodeAgree : Prop :=
  (∀ w : CmdWord, headerOf w = w.extractLsb' 128 8 ∧
    (headerOf w = 0x00#8 → decode w = .command (.reset (w.extractLsb' 0 32))) ∧
    (headerOf w = 0x40#8 → decode w = .command (.block (w.extractLsb' 0 64) (w.extractLsb' 64 64))) ∧
    (w.extractLsb' 132 4 = 0x8#4 → decode w = .command (.tail (w.extractLsb' 128 4) (w.extractLsb' 0 128))) ∧
    (headerOf w = 0xC0#8 → decode w = .command .hash) ∧
    (headerOf w ≠ 0x00#8 → headerOf w ≠ 0x40#8 → w.extractLsb' 132 4 ≠ 0x8#4 → headerOf w ≠ 0xC0#8 →
      decode w = .illegal (w.extractLsb' 128 8))) ∧
  (∀ h : BitVec 8, [h == 0x00#8, h == 0x40#8, h.extractLsb' 4 4 == 0x8#4, h == 0xC0#8].countP id ≤ 1) ∧
  (∀ i : Instr, isCanonical (encode i) = true) ∧
  (∀ i : Instr, i.WellFormed → decode (encode i) = .command i) ∧
  (∀ w : CmdWord, (∃ i, decode w = .command i ∧ encode i = w) ↔ isCanonical w = true)

/-- A few words written out from 30_encoding.md's formats decode to the commands they stand for (95_test_vectors.md section
4.6 gives these words). -/
def Obligations.SpecWordsDecode : Prop :=
  decode 0x00ffffffffffffffffffffffff00000001#136 = .command (.reset 0x00000001#32) ∧
  decode 0x40206e776f7262206b6369757120656854#136 = .command (.block 0x6369757120656854#64 0x206e776f7262206b#64) ∧
  decode 0x8b0000000000676f6420797a616c206568#136 =
    .command (.tail 11#4 0x0000000000676f6420797a616c206568#128) ∧
  decode 0xc0ffffffffffffffffffffffffffffffff#136 = .command .hash ∧
  decode 0x900000000000000000000000000000006f#136 = .illegal 0x90#8 ∧
  decode 0x41206e776f7262206b6369757120656854#136 = .illegal 0x41#8

/-- 30_encoding.md R70: words that differ in ignored bits only have the same effect and legality; header bits are never
ignored; the assembler emits canonical words only. -/
def Obligations.IgnoredBitsHaveNoEffect : Prop :=
  (∀ w v : CmdWord, headerOf w = headerOf v →
    (headerOf w = 0x00#8 → w.extractLsb' 0 32 = v.extractLsb' 0 32) →
    (headerOf w = 0x40#8 → payloadPart w = payloadPart v) →
    (∀ n : BitVec 4, headerOf w = 0x8#4 ++ n → ∀ j < 8 * n.toNat, w.getLsbD j = v.getLsbD j) →
    ∀ s : State, executeWord w s = executeWord v s) ∧
  (∀ w : CmdWord, (∃ hdr, decode w = .illegal hdr) ↔ ¬ ListedHeader (headerOf w)) ∧
  (∀ (l : AsmLine) (ws : List CmdWord), assembleLine l = some ws → ∀ w ∈ ws, isCanonical w = true)

/-- 30_encoding.md R63: the byte-serial image of a word and of a program. -/
def Obligations.ByteSerialImage : Prop :=
  (∀ w : CmdWord, (imageOf w).length = 17 ∧ (imageOf w)[0]? = some (w.extractLsb' 128 8) ∧
    (∀ i < 16, (imageOf w)[1 + i]? = some (w.extractLsb' (8 * i) 8)) ∧
    w.toNat = (headerOf w).toNat * 2 ^ 128
      + ((List.range 16).map (fun i => (lane (payloadPart w) i).toNat * 2 ^ (8 * i))).sum ∧
    wordOfImage (imageOf w) = some w) ∧
  (∀ (ws : List CmdWord) (j : Nat) (w : CmdWord), ws[j]? = some w →
    ((programImage ws).drop (17 * j)).take 17 = imageOf w) ∧
  (∀ ws : List CmdWord, wordsOfImage ws.length (programImage ws) = some ws)

/-- 30_encoding.md R80: every sequence of legal commands is a legal program, from every state outside the fault state; every
sequence of BLOCK and TAIL is the command sequence of some `include` calls, but for a closing `TAIL 0`. That with no event listed
the core takes one word a step is notes/assumptions/4.md. -/
def Obligations.EveryLegalSequenceRuns : Prop :=
  (∀ (is : List Instr) (s : State), ∃ t, runInstrs is s = .next t ∧ t.fault = s.fault ∧ t.cmds = s.cmds) ∧
  (∀ s : State, s.fault = false → s.sched = [] → s.cfg.rspDepth = .unbounded →
    (∀ w ∈ s.cmds, ListedHeader (headerOf w)) →
    ∃ t, Host.Core.run Sys2Proof.core s.cmds.length s = .next t ∧ t.cmds = [] ∧ t.fault = false) ∧
  (∀ is : List Instr, (∀ i ∈ is, (∃ k1 k2, i = .block k1 k2) ∨ ∃ n d, i = .tail n d) →
    ∃ bs : List (List Byte), ∀ s : State, runInstrs is s = runInstrs (bs.flatMap includeInstrs) s)

/-- 20_memory.md R51: the offered words execute one at a time, whole, in the order of acceptance, each on what the ones before
it left; a HASH reads the state left by all commands before it and by none after it; digests leave in the order of their HASH
commands. That with no event listed the core takes one word a step is notes/assumptions/4.md. -/
def Obligations.CommandsExecuteInOrder : Prop :=
  (∀ (s : State) (is : List Instr), s.fault = false → s.sched = [] → s.cfg.rspDepth = .unbounded →
    s.cmds.map decode = is.map .command →
    Host.Core.run Sys2Proof.core s.cmds.length s = runInstrs is { s with cmds := [] }) ∧
  (∀ (is js : List Instr) (s : State), ∃ t u : State, runInstrs is s = .next t ∧
    runInstrs (is ++ .hash :: js) s = .next u ∧ t.rspQ ++ [digestOf (hasherOf t)] <+: u.rspQ) ∧
  (∀ (s : State) (rest : List Move) (d : RspWord) (ds : List RspWord), s.sched = .take :: rest → s.rspQ = d :: ds →
    ∃ t, step s = .next t ∧ t.taken = s.taken ++ [d] ∧ t.rspQ = ds)

/-- 20_memory.md R51 along every run without a hardware reset or a fault, under every schedule of the host (the events are
notes/assumptions/4.md) and every capacity of the queue: the words accepted are commands, and the hasher state and the digests
emitted are what executing them in the order of acceptance gives. -/
def Obligations.AcceptedWordsRunInOrder : Prop :=
  ∀ (k : Nat) (s t : State), Move.hardReset ∉ s.sched.take k → Host.Core.run Sys2Proof.core k s = .next t →
    t.fault = false → ∃ (is : List Instr) (u : State), (acceptedWords k s).map decode = is.map .command ∧
      runInstrs is s = .next u ∧ hasherOf t = hasherOf u ∧ emitted t = emitted u

/-- 30_encoding.md R80 and 70_reset_and_hazards.md R231 on every instance, whatever the capacity of its queue: a host that
offers a finite sequence of words with legal headers, to an instance without fault and with an empty queue, and takes after
each, has the program run to its end. The schedule of events is notes/assumptions/4.md. -/
def Obligations.EveryLegalProgramRunsToItsEnd : Prop :=
  ∀ s : State, s.fault = false → s.rspQ = [] → s.cfg.wf = true → (∀ w ∈ s.cmds, ListedHeader (headerOf w)) →
    s.sched = (List.replicate s.cmds.length [Move.accept, Move.take]).flatten →
    ∃ t, RanToEnd s.cmds (2 * s.cmds.length) s t ∧ t.cmds = [] ∧ t.rspQ = []

/-! ### RESET (40_reset.md) -/

/-- 40_reset.md R90: `seed_ext` under both values of `SEED_EXT`, the default of `SEED_EXT`, and where the two agree. -/
def Obligations.SeedExtension : Prop :=
  (∀ seed : BitVec 32, seedExt .zero seed = (0x00000000#32 ++ seed : BitVec 64)) ∧
  (∀ seed : BitVec 32, seed.getLsbD 31 = true → seedExt .sign seed = (0xFFFFFFFF#32 ++ seed : BitVec 64)) ∧
  (∀ seed : BitVec 32, seed.getLsbD 31 = false → seedExt .sign seed = seedExt .zero seed) ∧
  seedExt .sign 0x80000000#32 = 0xFFFFFFFF80000000#64 ∧ seedExt .sign 0xFFFFFFFF#32 = 0xFFFFFFFFFFFFFFFF#64 ∧
  State.reset.cfg.seedExt = .sign

/-- 40_reset.md R91: RESET completes in every state, loads the seed, clears the counter and touches nothing else; its encoding,
its corner cases, its example. -/
def Obligations.ResetCommandLoadsTheSeed : Prop :=
  (∀ (s : State) (seed : BitVec 32), ∃ t, exec (.reset seed) s = .next t ∧
    t.h1 = seedExt s.cfg.seedExt seed ∧ t.h2 = seedExt s.cfg.seedExt seed ∧ t.length = 0#64 ∧
    t.fault = s.fault ∧ t.faultInfo = s.faultInfo ∧ t.rspQ = s.rspQ ∧ t.cfg = s.cfg ∧ t.cmds = s.cmds ∧
    t.taken = s.taken ∧ t.sched = s.sched) ∧
  (∀ (w : CmdWord) (s : State), headerOf w = 0x00#8 → executeWord w s = exec (.reset (w.extractLsb' 0 32)) s) ∧
  (∀ w : CmdWord, 0x01#8 ≤ headerOf w → headerOf w ≤ 0x0F#8 → decode w = .illegal (headerOf w)) ∧
  (∀ (s : State), exec (.reset 0#32) (hardwareReset s) = .next (hardwareReset s)) ∧
  (∀ (s : State) (a b : BitVec 32), runInstrs [.reset a, .reset b] s = exec (.reset b) s) ∧
  (∀ (s : State) (w : CmdWord), wordOfImage [0x00, 0x01, 0x00, 0x00, 0x00, 0x00, 0x00, 0x00, 0x00, 0x00, 0x00, 0x00, 0x00,
      0x00, 0x00, 0x00, 0x00] = some w →
    assembleLine (.reset 1) = some [w] ∧ ∃ t, executeWord w s = .next t ∧
      t.h1 = 0x0000000000000001#64 ∧ t.h2 = 0x0000000000000001#64 ∧ t.length = 0#64)

/-- 40_reset.md R92: after RESET, every later command sequence behaves as on any other instance reset with that seed; for seed
0, as after hardware reset. -/
def Obligations.ResetEquivalence : Prop :=
  (∀ (is : List Instr) (seed : BitVec 32) (s u : State), s.cfg = u.cfg →
    ∃ (t v : State) (ds : List RspWord), runInstrs (.reset seed :: is) s = .next t ∧
      runInstrs (.reset seed :: is) u = .next v ∧ hasherOf t = hasherOf v ∧
      t.rspQ = s.rspQ ++ ds ∧ v.rspQ = u.rspQ ++ ds) ∧
  (∀ (is : List Instr) (s : State), ∃ (t v : State) (ds : List RspWord), runInstrs (.reset 0#32 :: is) s = .next t ∧
      runInstrs is (hardwareReset s) = .next v ∧ hasherOf t = hasherOf v ∧ t.rspQ = s.rspQ ++ ds ∧ v.rspQ = ds)

/-- 40_reset.md R93: RESET clears no fault, empties no queue and changes no parameter, and in the fault state it is not even
accepted; hardware reset does the first two. -/
def Obligations.ResetCommandLeavesFaultAndQueue : Prop :=
  (∀ (s t : State) (seed : BitVec 32), exec (.reset seed) s = .next t →
    t.fault = s.fault ∧ t.faultInfo = s.faultInfo ∧ t.rspQ = s.rspQ ∧ t.cfg.seedExt = s.cfg.seedExt) ∧
  (∀ (s : State) (w : CmdWord) (ws : List CmdWord) (rest : List Move), s.fault = true → s.cmds = w :: ws →
    headerOf w = 0x00#8 → CoreTurn s rest → step s = .next { s with sched := rest }) ∧
  (∀ (s : State) (rest : List Move), s.sched = .hardReset :: rest → ∃ t, step s = .next t ∧
    t.fault = false ∧ t.faultInfo = 0#8 ∧ t.rspQ = [])

/-! ### BLOCK (41_block_mixer.md, 20_memory.md section 2) -/

/-- 41_block_mixer.md R100 and R101: the key-mix functions, their worked values and their value at 0. -/
def Obligations.KeyMixFunctions : Prop :=
  (∀ k : Word, mixK1 k = (k * 0x87c37b91114253d5#64).rotateLeft 31 * 0x4cf5ad432745937f#64) ∧
  (∀ k : Word, mixK2 k = (k * 0x4cf5ad432745937f#64).rotateLeft 33 * 0x87c37b91114253d5#64) ∧
  (rotl64 0x87c37b91114253d5#64 31 = 0x88a129eac3e1bdc8#64 ∧ mixK1 1#64 = 0x34e09d0b6bdefe38#64 ∧ mixK1 0#64 = 0#64) ∧
  (rotl64 0x4cf5ad432745937f#64 33 = 0x4e8b26fe99eb5a86#64 ∧ mixK2 1#64 = 0x4e26f5539bb7c37e#64 ∧ mixK2 0#64 = 0#64)

/-- 41_block_mixer.md R102: `bmix64`, whose second half reads the new first word. -/
def Obligations.BlockMixUpdate : Prop :=
  ∀ h1 h2 k1 k2 : Word, ∃ h1' h2' : Word, bmix64 h1 h2 k1 k2 = (h1', h2') ∧
    h1' = ((h1 ^^^ mixK1 k1).rotateLeft 27 + h2) * 5#64 + 0x0000000052dce729#64 ∧
    h2' = ((h2 ^^^ mixK2 k2).rotateLeft 31 + h1') * 5#64 + 0x0000000038495ab5#64

/-- 41_block_mixer.md R103: BLOCK completes in every state with the block update and 16 more bytes counted, and touches nothing
else; its encoding, the all-zero block, its example. -/
def Obligations.BlockCommandMixesTheBlock : Prop :=
  (∀ (s : State) (k1 k2 : Word), ∃ t, exec (.block k1 k2) s = .next t ∧
    (t.h1, t.h2) = bmix64 s.h1 s.h2 k1 k2 ∧ t.length = s.length + 16#64 ∧
    t.fault = s.fault ∧ t.faultInfo = s.faultInfo ∧ t.rspQ = s.rspQ ∧ t.cfg = s.cfg ∧ t.cmds = s.cmds ∧
    t.taken = s.taken ∧ t.sched = s.sched) ∧
  (∀ (w : CmdWord) (s : State), headerOf w = 0x40#8 →
    executeWord w s = exec (.block (w.extractLsb' 0 64) (w.extractLsb' 64 64)) s) ∧
  bmix64 0#64 0#64 0#64 0#64 = (0x0000000052dce729#64, 0x00000001d699de82#64) ∧
  mixK1 0x6369757120656854#64 = 0xede938f35bfbb35d#64 ∧ mixK2 0x206e776f7262206b#64 = 0x9b19a81a60aa0b18#64 ∧
  (∀ (s : State) (w : CmdWord), wordOfImage [0x40, 0x54, 0x68, 0x65, 0x20, 0x71, 0x75, 0x69, 0x63, 0x6b, 0x20, 0x62, 0x72,
      0x6f, 0x77, 0x6e, 0x20] = some w → hasherOf s = hasherOf State.reset →
    assembleText ['B', 'L', 'O', 'C', 'K', ' ', '"', 'T', 'h', 'e', ' ', 'q', 'u', 'i', 'c', 'k', ' ', 'b', 'r', 'o', 'w',
      'n', ' ', '"'] = some [w] ∧
    decode w = .command (.block 0x6369757120656854#64 0x206e776f7262206b#64) ∧ ∃ t, executeWord w s = .next t ∧
      t.h1 = 0x065f54070009580c#64 ∧ t.h2 = 0x1185bfe0bc383732#64 ∧ t.length = 0x10#64)

/-- 20_memory.md R42: the sixteen bytes of a block, in buffer order, are two little-endian words, and these are the two halves
of the payload. -/
def Obligations.BlockInputIsLittleEndian : Prop :=
  ∀ (b : List Byte) (w : CmdWord), b.length = 16 → wordOfImage (0x40#8 :: b) = some w →
    ∃ k1 k2 : Word, decode w = .command (.block k1 k2) ∧
      k1.toNat = ((List.range 8).map (fun i => (b.getD i 0#8).toNat * 2 ^ (8 * i))).sum ∧
      k2.toNat = ((List.range 8).map (fun i => (b.getD (8 + i) 0#8).toNat * 2 ^ (8 * i))).sum ∧
      k1 = w.extractLsb' 0 64 ∧ k2 = w.extractLsb' 64 64

/-- 41_block_mixer.md R105: the key mixes are bijections, and so is the block update for a fixed block. -/
def Obligations.MixingIsInvertible : Prop :=
  (∀ k1 k2 : Word, Function.Bijective (fun p : Word × Word => bmix64 p.1 p.2 k1 k2)) ∧
  Function.Bijective mixK1 ∧ Function.Bijective mixK2

/-- 10_state.md R23: the additions to `length` are modulo 2^64. -/
def Obligations.LengthWraps : Prop :=
  (∀ (s t : State) (k1 k2 : Word), exec (.block k1 k2) s = .next t → t.length.toNat = (s.length.toNat + 16) % 2 ^ 64) ∧
  (∀ (s t : State) (n : BitVec 4) (d : Payload), exec (.tail n d) s = .next t →
    t.length.toNat = (s.length.toNat + n.toNat) % 2 ^ 64) ∧
  (∀ (s t : State) (k1 k2 : Word), s.length.toNat = 2 ^ 64 - 8 → exec (.block k1 k2) s = .next t → t.length = 8#64)

/-! ### TAIL (42_tail_finalizer.md) -/

/-- 42_tail_finalizer.md R120: `tailK` as the little-endian value of the lanes below the count, read unsigned; `k2` is 0 for a
count of at most 8, and `k1` is the payload's low half from a count of 8 on. -/
def Obligations.TailAssembly : Prop :=
  (∀ (n : Nat) (d : Payload), n ≤ 15 →
    (tailK n d).1.toNat = ((List.range (min n 8)).map (fun i => (lane d i).toNat * 2 ^ (8 * i))).sum ∧
    (tailK n d).2.toNat = ((List.range (n - 8)).map (fun i => (lane d (8 + i)).toNat * 2 ^ (8 * i))).sum) ∧
  (∀ (n : Nat) (d : Payload), n ≤ 8 → (tailK n d).2 = 0#64) ∧
  (∀ (n : Nat) (d : Payload), 8 ≤ n → (tailK n d).1 = d.extractLsb' 0 64)

/-- 42_tail_finalizer.md R121: TAIL completes in every state with every count, XORs the two mixed words in, counts `N` bytes and
touches nothing else; its encoding, its example, and a byte 0x80 that is not sign-extended. -/
def Obligations.TailCommandXorsTheTail : Prop :=
  (∀ (s : State) (n : BitVec 4) (d : Payload), ∃ t, exec (.tail n d) s = .next t ∧
    t.h1 = s.h1 ^^^ mixK1 (tailK n.toNat d).1 ∧ t.h2 = s.h2 ^^^ mixK2 (tailK n.toNat d).2 ∧
    t.length = s.length + BitVec.ofNat 64 n.toNat ∧
    t.fault = s.fault ∧ t.faultInfo = s.faultInfo ∧ t.rspQ = s.rspQ ∧ t.cfg = s.cfg ∧ t.cmds = s.cmds ∧
    t.taken = s.taken ∧ t.sched = s.sched) ∧
  (∀ (w : CmdWord) (n : BitVec 4) (s : State), headerOf w = 0x8#4 ++ n →
    executeWord w s = exec (.tail n (w.extractLsb' 0 128)) s) ∧
  (tailK 1 0x80#128 = (0x0000000000000080#64, 0#64)) ∧
  (∀ (s : State) (w : CmdWord), wordOfImage [0x84, 0x68, 0x65, 0x6c, 0x6c, 0x00, 0x00, 0x00, 0x00, 0x00, 0x00, 0x00, 0x00,
      0x00, 0x00, 0x00, 0x00] = some w → hasherOf s = hasherOf State.reset →
    assembleText ['T', 'A', 'I', 'L', ' ', '"', 'h', 'e', 'l', 'l', '"'] = some [w] ∧ ∃ t, executeWord w s = .next t ∧
      t.h1 = 0xcebd64d8db31fd75#64 ∧ t.h2 = 0#64 ∧ t.length = 4#64 ∧
      digestOf (hasherOf t) = 0x629942693e10f86792db0b82baeb5347#128) ∧
  (tailK 4 0x6c6c6568#128 = (0x000000006c6c6568#64, 0#64)) ∧ mixK1 0x000000006c6c6568#64 = 0xcebd64d8db31fd75#64

/-- 42_tail_finalizer.md R124: TAIL with `N = 0` changes no state; as a word it is taken like any other, so not in the fault
state. -/
def Obligations.TailOfZeroBytesIsTheNoOp : Prop :=
  (∀ (s : State) (d : Payload), exec (.tail 0#4 d) s = .next s) ∧
  (∀ d : Payload, tailK 0 d = (0#64, 0#64)) ∧ mixK1 0#64 = 0#64 ∧ mixK2 0#64 = 0#64 ∧
  (∀ (s : State) (rest : List Move) (w : CmdWord) (ws : List CmdWord), CoreTurn s rest → s.cmds = w :: ws →
    headerOf w = 0x80#8 → acceptsWord s w = true → step s = .next { s with cmds := ws, sched := rest }) ∧
  (∀ (s : State) (rest : List Move) (w : CmdWord) (ws : List CmdWord), CoreTurn s rest → s.cmds = w :: ws →
    headerOf w = 0x80#8 → s.fault = true → step s = .next { s with sched := rest })

/-- 42_tail_finalizer.md R125: a tail of at most 8 bytes leaves `h2`; a tail of zero bytes changes only `length`; and no bytes
against one zero byte leave digests that differ. -/
def Obligations.TailPartialEffects : Prop :=
  (∀ (s : State) (n : BitVec 4) (d : Payload), n.toNat ≤ 8 → ∃ t, exec (.tail n d) s = .next t ∧ t.h2 = s.h2) ∧
  (∀ (s : State) (n : BitVec 4) (d : Payload), (∀ i < n.toNat, lane d i = 0#8) → ∃ t, exec (.tail n d) s = .next t ∧
    t = { s with length := s.length + BitVec.ofNat 64 n.toNat }) ∧
  (∀ s : State, ∃ t u, runInstrs [.tail 0#4 0#128] s = .next t ∧ runInstrs [.tail 1#4 0#128] s = .next u ∧
    t.h1 = u.h1 ∧ t.h2 = u.h2 ∧ u.length = t.length + 1#64 ∧ digestOf (hasherOf t) ≠ digestOf (hasherOf u))

/-! ### HASH (43_avalanche_diffuser.md) and the response queue -/

/-- 43_avalanche_diffuser.md R140: `fmix64`, its worked value, its value at 0, and that it is a bijection. -/
def Obligations.AvalancheFunction : Prop :=
  (∀ k : Word, ∃ a b c d : Word, a = k ^^^ (k >>> 33) ∧ b = a * 0xff51afd7ed558ccd#64 ∧ c = b ^^^ (b >>> 33) ∧
    d = c * 0xc4ceb9fe1a85ec53#64 ∧ fmix64 k = d ^^^ (d >>> 33)) ∧
  fmix64 1#64 = 0xb456bcfc34c2cb2c#64 ∧ fmix64 0#64 = 0#64 ∧ Function.Bijective fmix64

/-- 43_avalanche_diffuser.md R141: the finalization sequence, each second word from the new first word. -/
def Obligations.FinalizationSequence : Prop :=
  ∀ h1 h2 len : Word, ∃ b1 b2 d1 d2 : Word, b1 = (h1 ^^^ len) + (h2 ^^^ len) ∧ b2 = (h2 ^^^ len) + b1 ∧
    d1 = fmix64 b1 + fmix64 b2 ∧ d2 = fmix64 b2 + d1 ∧ finalize h1 h2 len = (d1, d2)

/-- 43_avalanche_diffuser.md R142: HASH completes in every state, appends the digest with `h1'` in the high half and writes
nothing else; its encoding; the zero digest; the full queue; its example. -/
def Obligations.HashCommandEmitsTheDigest : Prop :=
  (∀ s : State, ∃ t, exec .hash s = .next t ∧
    t.rspQ = s.rspQ ++ [((finalize s.h1 s.h2 s.length).1 ++ (finalize s.h1 s.h2 s.length).2 : BitVec 128)] ∧
    t.h1 = s.h1 ∧ t.h2 = s.h2 ∧ t.length = s.length ∧
    t.fault = s.fault ∧ t.faultInfo = s.faultInfo ∧ t.cfg = s.cfg ∧ t.cmds = s.cmds ∧
    t.taken = s.taken ∧ t.sched = s.sched) ∧
  (∀ (w : CmdWord) (s : State), headerOf w = 0xC0#8 → executeWord w s = exec .hash s) ∧
  (∀ h : Word, finalize h h h = (0#64, 0#64)) ∧
  (∀ (s : State) (w : CmdWord) (ws : List CmdWord) (rest : List Move), CoreTurn s rest → s.cmds = w :: ws →
    headerOf w = 0xC0#8 → rspFull s = true → step s = .next { s with sched := rest }) ∧
  finalize 0xcebd64d8db31fd75#64 0#64 4#64 = (0x629942693e10f867#64, 0x92db0b82baeb5347#64)

/-- 43_avalanche_diffuser.md R143: `k` HASHes put `k` equal digests in the queue, also with empty tails between them. -/
def Obligations.HashIsRepeatable : Prop :=
  (∀ (k : Nat) (s : State), runInstrs (List.replicate k .hash) s =
    .next { s with rspQ := s.rspQ ++ List.replicate k (digestOf (hasherOf s)) }) ∧
  (∀ (s : State) (d : Payload), runInstrs [.hash, .tail 0#4 d, .hash] s =
    .next { s with rspQ := s.rspQ ++ [digestOf (hasherOf s), digestOf (hasherOf s)] })

/-- 10_state.md R28: the digests emitted so far never change; a step adds at most the one its HASH emits; only hardware reset
discards queued ones. -/
def Obligations.DigestsAreDetached : Prop :=
  (∀ s t : State, step s = .next t → s.sched.head? ≠ some .hardReset →
    (nextCommand s = some .hash ∧ emitted t = emitted s ++ [digestOf (hasherOf s)]) ∨
    (nextCommand s ≠ some .hash ∧ emitted t = emitted s)) ∧
  (∀ s t : State, step s = .next t → s.sched.head? = some .hardReset → emitted t = s.taken) ∧
  (∀ (k : Nat) (s t : State), (∀ m ∈ s.sched, m ≠ .hardReset) → Host.Core.run Sys2Proof.core k s = .next t →
    emitted s <+: emitted t)

/-- 30_encoding.md R66: `RSP_VALID` is 1 exactly when the queue is not empty and `RSP` is its head; taking removes the head; the
digests leave in the order they were emitted in, and waiting changes none; a fault does not empty the queue. -/
def Obligations.ResponseHandshake : Prop :=
  (∀ s : State, portRspValid s = 1#1 ↔ s.rspQ ≠ []) ∧
  (∀ (s : State) (d : RspWord) (ds : List RspWord), s.rspQ = d :: ds → portRsp s = some d) ∧
  (∀ (s : State) (rest : List Move) (d : RspWord) (ds : List RspWord), s.sched = .take :: rest → s.rspQ = d :: ds →
    step s = .next { s with rspQ := ds, taken := s.taken ++ [d], sched := rest }) ∧
  (∀ s : State, atEdge s = true → portRspValid s = 1#1 → portRspReady s = 1#1 → ∃ d ds, portRsp s = some d ∧
    s.rspQ = d :: ds ∧ step s = .next { s with rspQ := ds, taken := s.taken ++ [d], sched := s.sched.tail }) ∧
  (∀ s t : State, step s = .next t → s.sched.head? ≠ some .hardReset → ∃ ds, emitted t = emitted s ++ ds) ∧
  (∀ (s t : State) (w : CmdWord), executeWord w s = .next t → ¬ ListedHeader (headerOf w) → t.rspQ = s.rspQ)

/-- 70_reset_and_hazards.md R228 and 10_state.md R27: with a full queue a HASH is held, nothing is lost and nothing faults;
taking a digest lifts the hold; a host that takes nothing stays held; an unbounded queue holds nothing. -/
def Obligations.BackPressure : Prop :=
  (∀ (s : State) (rest : List Move) (w : CmdWord) (ws : List CmdWord), CoreTurn s rest → s.cmds = w :: ws →
    headerOf w = 0xC0#8 → rspFull s = true → step s = .next { s with sched := rest }) ∧
  (∀ (s : State) (rest : List Move) (n : Nat) (w : CmdWord) (ws : List CmdWord) (d : RspWord) (ds : List RspWord),
    s.fault = false → s.sched = .take :: .accept :: rest → s.cmds = w :: ws → headerOf w = 0xC0#8 →
    s.cfg.rspDepth = .slots n → s.rspQ = d :: ds → s.rspQ.length = n →
    Host.Core.run Sys2Proof.core 2 s =
      .next { s with rspQ := ds ++ [digestOf (hasherOf s)], taken := s.taken ++ [d], cmds := ws, sched := rest }) ∧
  (∀ (k : Nat) (s : State) (w : CmdWord) (ws : List CmdWord), s.sched = [] → s.cmds = w :: ws → headerOf w = 0xC0#8 →
    rspFull s = true → Host.Core.run Sys2Proof.core k s = .next s) ∧
  (∀ (s : State) (w : CmdWord), s.cfg.rspDepth = .unbounded → heldByQueue s w = false)

/-! ### INCLUDE and sessions (44_include.md) -/

/-- 44_include.md R160: the expansion of INCLUDE: `floor(L/16)` BLOCKs, one TAIL with `L mod 16` bytes, each byte of the buffer
in exactly one command, in order; canonical words; no flag, no exception; its corner case and its example. -/
def Obligations.IncludeExpansion : Prop :=
  (∀ b : List Byte, ∃ (blocks : List Instr) (n : BitVec 4) (d : Payload),
    includeInstrs b = blocks ++ [.tail n d] ∧ blocks.length = b.length / 16 ∧ (∀ i ∈ blocks, ∃ k1 k2, i = .block k1 k2) ∧
    n.toNat = b.length % 16 ∧ (includeInstrs b).flatMap inputBytes = b ∧ ∀ i ∈ includeInstrs b, i.WellFormed) ∧
  (∀ (b : List Byte), ∀ w ∈ includeWords b, isCanonical w = true) ∧
  (∀ (b : List Byte) (s : State), ∃ t, runInstrs (includeInstrs b) s = .next t ∧ t.fault = s.fault ∧
    t.faultInfo = s.faultInfo ∧ t.rspQ = s.rspQ) ∧
  includeInstrs [] = [.tail 0#4 0#128] ∧
  includeWords [0x54, 0x68, 0x65, 0x20, 0x71, 0x75, 0x69, 0x63, 0x6b, 0x20, 0x62, 0x72, 0x6f, 0x77, 0x6e, 0x20,
      0x66, 0x6f, 0x78, 0x20, 0x6a, 0x75, 0x6d, 0x70, 0x73, 0x20, 0x6f, 0x76, 0x65, 0x72, 0x20, 0x74,
      0x68, 0x65, 0x20, 0x6c, 0x61, 0x7a, 0x79, 0x20, 0x64, 0x6f, 0x67] =
    [0x40206e776f7262206b6369757120656854#136, 0x4074207265766f2073706d756a20786f66#136,
     0x8b0000000000676f6420797a616c206568#136]

/-- 44_include.md R161: the commands of INCLUDE compute `include(S, b)`, the commands of a session `session(seed, ...)`, and
the digest HASH then emits for one call is `hash128(seed, b)`. -/
def Obligations.IncludeIsAFold : Prop :=
  (∀ (b : List Byte) (s : State), runInstrs (includeInstrs b) s = .next (setHasher (includeHasher (hasherOf s) b) s)) ∧
  (∀ (seed : BitVec 32) (bs : List (List Byte)) (s : State),
    runInstrs (.reset seed :: bs.flatMap includeInstrs) s = .next (setHasher (session s.cfg.seedExt seed bs) s)) ∧
  (∀ (seed : BitVec 32) (b : List Byte) (s : State), ∃ t,
    runInstrs (.reset seed :: (includeInstrs b ++ [.hash])) s = .next t ∧
      t.rspQ = s.rspQ ++ [hash128 s.cfg.seedExt seed b])

/-- The one-shot hash as a run of the machine: the words of RESET, INCLUDE and HASH, accepted one a step, and then one digest
taken, run to their end in the sense of 70_reset_and_hazards.md R231, and the result is the digest `hash128(seed, b)` with the
hasher state `include(S0(seed), b)` of 44_include.md R161. The schedule of events is notes/assumptions/4.md. -/
def Obligations.OneShotHashRunsToItsEnd : Prop :=
  ∀ (s : State) (seed : BitVec 32) (b : List Byte), s.fault = false → s.rspQ = [] → s.cfg.wf = true →
    s.cmds = oneShotWords seed b →
    s.sched = List.replicate (oneShotWords seed b).length .accept ++ [.take] →
    ∃ t, RanToEnd (oneShotWords seed b) s.sched.length s t ∧ t.cmds = [] ∧
      t.taken = s.taken ++ [hash128 s.cfg.seedExt seed b] ∧
      resultOf s t = { digests := [hash128 s.cfg.seedExt seed b],
                       hasher := includeHasher (seedHasher s.cfg.seedExt seed) b }

/-- 44_include.md R163: two calls are one call on the joined bytes where the first is a multiple of 16 long. -/
def Obligations.ChunkingAtBlockBoundaries : Prop :=
  (∀ (h : Hasher) (b c : List Byte), 16 ∣ b.length →
    includeHasher (includeHasher h b) c = includeHasher h (b ++ c)) ∧
  (∀ (s : State) (b c : List Byte), 16 ∣ b.length →
    runInstrs (includeInstrs b ++ includeInstrs c) s = runInstrs (includeInstrs (b ++ c)) s)

/-- 44_include.md R162: the two cuts count the same bytes, and the spec's example gives two different digests. -/
def Obligations.ChunkingSensitivity : Prop :=
  (∀ (h : Hasher) (b c : List Byte),
    (includeHasher (includeHasher h b) c).length = (includeHasher h (b ++ c)).length) ∧
  (∀ ext : SeedExt, hash128 ext 1#32 [0x68, 0x65, 0x6c, 0x6c, 0x6f] = 0xa78ddff5adae8d10128900ef20900135#128 ∧
    digestOf (session ext 1#32 [[0x68, 0x65], [0x6c, 0x6c, 0x6f]]) = 0x4a6f5b93b0242b44b8576b1981f4e1ea#128)

/-- 44_include.md R164: INCLUDE of no bytes changes no state. -/
def Obligations.EmptyIncludeChangesNothing : Prop :=
  (∀ s : State, runInstrs (includeInstrs []) s = .next s) ∧ (∀ h : Hasher, includeHasher h [] = h)

/-- 10_state.md R22: along every run `length` is, modulo 2^64, the bytes of the BLOCKs and TAILs executed since the last RESET
command or hardware reset; and one `include` of `L` bytes adds `L`. -/
def Obligations.LengthCountsTheInput : Prop :=
  (∀ (k base : Nat) (s t : State), s.length = BitVec.ofNat 64 base → Host.Core.run Sys2Proof.core k s = .next t →
    t.length = BitVec.ofNat 64 (countRun k base s)) ∧
  (∀ (h : Hasher) (b : List Byte), (includeHasher h b).length = h.length + BitVec.ofNat 64 b.length)

/-! ### The fault (60_exceptions.md) -/

/-- 60_exceptions.md R190: accepting a word with an illegal header sets `fault` and records the header, and writes no other
state of the block; a step that sets `fault` accepted such a word; the cause number is the value of `FAULT`. -/
def Obligations.IllegalHeaderTakesTheFault : Prop :=
  (∀ (s : State) (rest : List Move) (w : CmdWord) (ws : List CmdWord), CoreTurn s rest → s.cmds = w :: ws →
    acceptsWord s w = true → ¬ ListedHeader (headerOf w) → ∃ t, step s = .next t ∧
      t.fault = true ∧ t.faultInfo = w.extractLsb' 128 8 ∧ t.h1 = s.h1 ∧ t.h2 = s.h2 ∧ t.length = s.length ∧
      t.rspQ = s.rspQ ∧ t.cmds = ws ∧ t.cfg = s.cfg ∧ t.taken = s.taken ∧ t.sched = rest) ∧
  (∀ s t : State, step s = .next t → s.fault = false → t.fault = true →
    ∃ w ws, s.cmds = w :: ws ∧ ¬ ListedHeader (headerOf w) ∧ t.faultInfo = headerOf w) ∧
  (∀ s : State, faultCause s = (portFault s).toNat ∧ (s.fault = true → faultCause s = 1) ∧
    (s.fault = false → faultCause s = 0))

/-- 60_exceptions.md R193: in the fault state no word is accepted, `CMD_READY` is 0, `FAULT` is 1, `FAULT_INFO` shows the
recorded header, and all a step other than hardware reset can do is hand the host a queued digest (or offer one more word, which
is the host's doing). -/
def Obligations.FaultStateAcceptsNoWord : Prop :=
  ∀ s : State, s.fault = true → s.sched.head? ≠ some .hardReset →
    portCmdReady s = 0#1 ∧ portFault s = 1#1 ∧ portFaultInfo s = s.faultInfo ∧
    ∃ t, step s = .next t ∧ t.fault = true ∧ t.faultInfo = s.faultInfo ∧ hasherOf t = hasherOf s ∧ t.cfg = s.cfg ∧
      (t.cmds = s.cmds ∨ ∃ w, s.sched.head? = some (.issue w) ∧ t.cmds = s.cmds ++ [w]) ∧
      ((t.rspQ = s.rspQ ∧ t.taken = s.taken) ∨
        ∃ d, s.sched.head? = some .take ∧ s.rspQ = d :: t.rspQ ∧ t.taken = s.taken ++ [d])

/-- 60_exceptions.md R194: nothing but hardware reset returns from the fault or raises it anew; hardware reset discards the
hasher state and the queue. -/
def Obligations.NoReturnFromTheFault : Prop :=
  (∀ (k : Nat) (s t : State), s.fault = true → (∀ m ∈ s.sched, m ≠ .hardReset) →
    Host.Core.run Sys2Proof.core k s = .next t →
      t.fault = true ∧ t.faultInfo = s.faultInfo ∧ hasherOf t = hasherOf s) ∧
  (∀ (s : State) (rest : List Move), s.sched = .hardReset :: rest → ∃ t, step s = .next t ∧ t.fault = false ∧
    hasherOf t = { h1 := 0#64, h2 := 0#64, length := 0#64 } ∧ t.rspQ = [])

/-- Every command completes in every state and none of them faults (60_exceptions.md R191): `exec` answers a next state for
RESET, BLOCK, TAIL and HASH with the fault record as before. That every step of the machine goes on to a next state is the model's
choice: a turn on which the core takes nothing, in the fault state too, where 00_scope.md R8 has no step at all, is a step that
changes nothing (notes/assumptions/5.md), and IllegalCommand is a next state (notes/assumptions/6.md). -/
def Obligations.CommandsNeverFault : Prop :=
  (∀ (i : Instr) (s : State), ∃ t, exec i s = .next t ∧ t.fault = s.fault ∧ t.faultInfo = s.faultInfo) ∧
  (∀ s : State, ∃ t, step s = .next t)

/-! ### The whole machine -/

/-- 10_state.md R32: the access matrix. What each command, an illegal header and hardware reset leave unwritten, and that what
they write depends on nothing they do not read. -/
def Obligations.AccessMatrix : Prop :=
  (∀ (s t : State) (i : Instr), exec i s = .next t → i ≠ .hash →
    t.rspQ = s.rspQ ∧ t.fault = s.fault ∧ t.faultInfo = s.faultInfo) ∧
  (∀ s t : State, exec .hash s = .next t → t.h1 = s.h1 ∧ t.h2 = s.h2 ∧ t.length = s.length ∧
    (∃ d, t.rspQ = s.rspQ ++ [d]) ∧ t.fault = s.fault ∧ t.faultInfo = s.faultInfo) ∧
  (∀ (s u t v : State) (seed : BitVec 32), s.cfg = u.cfg → exec (.reset seed) s = .next t →
    exec (.reset seed) u = .next v → hasherOf t = hasherOf v) ∧
  (∀ (s u t v : State) (i : Instr), s.cfg = u.cfg → hasherOf s = hasherOf u → exec i s = .next t → exec i u = .next v →
    hasherOf t = hasherOf v ∧ ∃ ds, t.rspQ = s.rspQ ++ ds ∧ v.rspQ = u.rspQ ++ ds) ∧
  (∀ (s t : State) (w : CmdWord), ¬ ListedHeader (headerOf w) → executeWord w s = .next t →
    hasherOf t = hasherOf s ∧ t.rspQ = s.rspQ ∧ t.fault = true ∧ t.faultInfo = headerOf w) ∧
  (∀ (s : State) (rest : List Move), s.sched = .hardReset :: rest → ∃ t, step s = .next t ∧
    hasherOf t = { h1 := 0#64, h2 := 0#64, length := 0#64 } ∧ t.rspQ = [] ∧ t.fault = false ∧ t.faultInfo = 0#8)

/-- 10_state.md R33: the host sees `h1`, `h2` and `length` only through digests: two machines that differ in them alone give the
host the same view at every point of a run in which no HASH word is offered. That the view also shows the untaken head on `RSP`
is notes/assumptions/25.md. -/
def Obligations.HostSeesTheHasherOnlyThroughDigests : Prop :=
  ∀ (k : Nat) (s : State) (h : Hasher), (∀ w ∈ s.cmds, headerOf w ≠ 0xC0#8) →
    (∀ w, Move.issue w ∈ s.sched → headerOf w ≠ 0xC0#8) →
    ∃ t u, Host.Core.run Sys2Proof.core k s = .next t ∧ Host.Core.run Sys2Proof.core k (setHasher h s) = .next u ∧
      hostView t = hostView u

/-- The step behind the statement above: two states that differ in `h1`, `h2` and `length` at most, with no HASH to come, look alike
to the host, and a step from each leads to two such states again. The view's field `rsp` is notes/assumptions/25.md, the events
are notes/assumptions/4.md. -/
def Obligations.StepKeepsTheHasherHidden : Prop :=
  ∀ s u : State, SameButHasher s u → NoHashToCome s → hostView s = hostView u ∧
    ∃ t v, step s = .next t ∧ step u = .next v ∧ SameButHasher t v ∧ NoHashToCome t

/-- Every step keeps the invariant: the capacity is legal, the fault record is 0 without a fault and an illegal header with one
(10_state.md R26), the queue holds no more than its capacity (10_state.md R27). -/
def Obligations.StepKeepsTheInvariant : Prop :=
  ∀ s t : State, s.Inv → step s = .next t → t.Inv

/-- The invariant holds right after hardware reset. -/
def Obligations.InvariantHoldsAtReset : Prop := State.reset.Inv

/-- The parameters of the instance are static configuration (10_state.md R26): no step changes them. -/
def Obligations.ParametersNeverChange : Prop :=
  ∀ s t : State, step s = .next t → t.cfg = s.cfg

/-- The host's moves that are not the core's (70_reset_and_hazards.md R232 rows 1 and 4): offering one more word, observing.
That a word offered later stands behind those offered before is notes/assumptions/4.md; that hardware reset leaves the host's
side and the parameters as they are is notes/assumptions/8.md. -/
def Obligations.HostMoves : Prop :=
  (∀ (s : State) (rest : List Move) (w : CmdWord), s.sched = .issue w :: rest →
    step s = .next { s with cmds := s.cmds ++ [w], sched := rest }) ∧
  (∀ (s : State) (rest : List Move), s.sched = .observe :: rest → step s = .next { s with sched := rest }) ∧
  (∀ (s : State) (rest : List Move), s.sched = .hardReset :: rest →
    step s = .next { State.reset with cfg := s.cfg, cmds := s.cmds, taken := s.taken, sched := rest }) ∧
  (∀ s : State, s.sched = [] → s.cmds = [] → step s = .next s)

/-! ### The digest views (45_digest_views.md) and the assembler (30_encoding.md section 6) -/

/-- 45_digest_views.md R180, R181 and R182: the two byte forms and the integer, as slices of `RSP = {h1', h2'}`. -/
def Obligations.DigestBytesAndInteger : Prop :=
  (∀ h1 h2 : Word, (toBigEndianBytes h1 h2).length = 16 ∧
    (∀ j < 8, (toBigEndianBytes h1 h2)[j]? = some (h1.extractLsb' (56 - 8 * j) 8) ∧
      (toBigEndianBytes h1 h2)[8 + j]? = some (h2.extractLsb' (56 - 8 * j) 8)) ∧
    (∀ j < 16, (toBigEndianBytes h1 h2)[j]? = some ((cat64 h1 h2).extractLsb' (120 - 8 * j) 8)) ∧
    (∀ j < 16, (toLittleEndianBytes h1 h2)[j]? = (toBigEndianBytes h1 h2)[15 - j]? ∧
      (toLittleEndianBytes h1 h2)[j]? = some ((cat64 h1 h2).extractLsb' (8 * j) 8)) ∧
    toBigInteger h1 h2 = h1.toNat * 2 ^ 64 + h2.toNat ∧ toBigInteger h1 h2 = (cat64 h1 h2).toNat ∧
    toBigInteger h1 h2 < 2 ^ 128) ∧
  toBigEndianBytes 0x629942693e10f867#64 0x92db0b82baeb5347#64 =
    [0x62, 0x99, 0x42, 0x69, 0x3e, 0x10, 0xf8, 0x67, 0x92, 0xdb, 0x0b, 0x82, 0xba, 0xeb, 0x53, 0x47] ∧
  toLittleEndianBytes 0x629942693e10f867#64 0x92db0b82baeb5347#64 =
    [0x47, 0x53, 0xeb, 0xba, 0x82, 0x0b, 0xdb, 0x92, 0x67, 0xf8, 0x10, 0x3e, 0x69, 0x42, 0x99, 0x62] ∧
  toBigInteger 0x629942693e10f867#64 0x92db0b82baeb5347#64 = 131060111983477075659263369683919393607

/-- 45_digest_views.md R183 and R184: the hex string is the lower-case encoding of the big-endian bytes, 32 characters, and
reversing the big-endian bytes gives the little-endian ones. -/
def Obligations.DigestHexString : Prop :=
  (∀ h1 h2 : Word, (hexChars h1 h2).length = 32 ∧ toHexString h1 h2 = String.ofList (hexChars h1 h2) ∧
    (∀ (j : Nat) (b : Byte), (toBigEndianBytes h1 h2)[j]? = some b →
      (hexChars h1 h2)[2 * j]? = hexDigits[b.toNat / 16]? ∧ (hexChars h1 h2)[2 * j + 1]? = hexDigits[b.toNat % 16]?) ∧
    (toBigEndianBytes h1 h2).reverse = toLittleEndianBytes h1 h2) ∧
  hexChars 0x629942693e10f867#64 0x92db0b82baeb5347#64 =
    ['6', '2', '9', '9', '4', '2', '6', '9', '3', 'e', '1', '0', 'f', '8', '6', '7',
     '9', '2', 'd', 'b', '0', 'b', '8', '2', 'b', 'a', 'e', 'b', '5', '3', '4', '7'] ∧
  hexChars 0#64 0#64 = List.replicate 32 '0'

/-- 45_digest_views.md R185: two digests are equal exactly when both fields are, that is when the response words are. -/
def Obligations.DigestEquality : Prop :=
  ∀ a b c d : Word, cat64 a b = cat64 c d ↔ a = c ∧ b = d

/-- The assembler of 30_encoding.md R77 and R78: seeds modulo 2^32, operand counts, INCLUDE's expansion. -/
def Obligations.AssemblerLines : Prop :=
  (∀ n : Int, -2 ^ 31 ≤ n → n ≤ 2 ^ 32 - 1 → ∃ w : CmdWord, assembleLine (.reset n) = some [w] ∧
    headerOf w = 0x00#8 ∧ ((w.extractLsb' 0 128).toNat : Int) = n % 2 ^ 32) ∧
  (∀ n : Int, n < -2 ^ 31 ∨ 2 ^ 32 - 1 < n → assembleLine (.reset n) = none) ∧
  assembleLine (.reset (-1)) = assembleLine (.reset 0xffffffff) ∧
  (∀ b : List Byte, assembleLine (.block b) = if b.length = 16 then wordOfImage (0x40#8 :: b) |>.map ([·]) else none) ∧
  (∀ b : List Byte, b.length ≤ 15 → ∃ w : CmdWord, assembleLine (.tail b) = some [w] ∧
    headerOf w = 0x80#8 + BitVec.ofNat 8 b.length ∧ payloadPart w = payloadOf b) ∧
  (∀ b : List Byte, 15 < b.length → assembleLine (.tail b) = none) ∧
  assembleLine .hash = some [0xc000000000000000000000000000000000#136] ∧
  (∀ b : List Byte, assembleLine (.includeBytes b) = some (includeWords b))
end

