-- ==== Sys2Proof/Laws/Arith.lean ====
section
/-! SUPPORT. What the bit-level primitives are, bit by bit and as numbers. -/

namespace Sys2Proof.Machine

/-- `rotl64` is the library's rotation at the rotation amounts the spec uses. -/
theorem rotl64_eq_rotateLeft (a : Word) (r : Nat) (h : r < 64) : rotl64 a r = a.rotateLeft r := by
  simp [rotl64, BitVec.rotateLeft, BitVec.rotateLeftAux, Nat.mod_eq_of_lt h]

/-- A bit of a lane. -/
theorem lane_getLsbD (d : Payload) (i j : Nat) : (lane d i).getLsbD j = (decide (j < 8) && d.getLsbD (8 * i + j)) := by
  simp [lane, BitVec.getLsbD_extractLsb']

/-- `maskLanes n` keeps the bits below `8 * n` and clears the others (42_tail_finalizer.md R127). -/
theorem maskLanes_getLsbD (n : Nat) (d : Payload) (j : Nat) :
    (maskLanes n d).getLsbD j = (decide (j < 8 * n) && d.getLsbD j) := by
  induction n with
  | zero => simp [maskLanes]
  | succ n ih =>
    by_cases hj : j < 128
    · simp only [maskLanes, BitVec.getLsbD_or, ih, BitVec.getLsbD_shiftLeft, BitVec.getLsbD_setWidth, lane_getLsbD]
      by_cases h1 : j < 8 * n
      · have : j < 8 * (n + 1) := by omega
        simp [h1, this]
      · by_cases h2 : j < 8 * (n + 1)
        · have e : 8 * n + (j - 8 * n) = j := by omega
          have : j - 8 * n < 8 := by omega
          have : j - 8 * n < 128 := by omega
          simp [*]
        · have : ¬ j - 8 * n < 8 := by omega
          simp [h1, h2, this]
    · have hd : ∀ x : Payload, x.getLsbD j = false := fun x => BitVec.getLsbD_of_ge x j (by omega)
      simp [hd]

/-- All 16 lanes kept: nothing changes. -/
theorem maskLanes_of_full {n : Nat} (h : 16 ≤ n) (d : Payload) : maskLanes n d = d := by
  apply BitVec.eq_of_getLsbD_eq
  intro i hi
  have : i < 8 * n := by omega
  simp [maskLanes_getLsbD, this]

/-- Masking twice is masking once. -/
theorem maskLanes_maskLanes (n : Nat) (d : Payload) : maskLanes n (maskLanes n d) = maskLanes n d := by
  apply BitVec.eq_of_getLsbD_eq
  intro i _
  simp [maskLanes_getLsbD]

/-- Only the lanes below `n` matter to `maskLanes n`. -/
theorem maskLanes_congr {n : Nat} {d e : Payload} (h : ∀ j < 8 * n, d.getLsbD j = e.getLsbD j) :
    maskLanes n d = maskLanes n e := by
  apply BitVec.eq_of_getLsbD_eq
  intro i _
  by_cases hi : i < 8 * n
  · simp [maskLanes_getLsbD, hi, h i hi]
  · simp [maskLanes_getLsbD, hi]

/-- The halves put together again. -/
theorem cat64_halves (d : Payload) : cat64 (highHalf d) (lowHalf d) = d := by
  apply BitVec.eq_of_getLsbD_eq
  intro i hi
  simp only [cat64, highHalf, lowHalf, BitVec.getLsbD_append, BitVec.getLsbD_extractLsb']
  by_cases h : i < 64
  · simp [h]
  · have : 64 + (i - 64) = i := by omega
    have : i - 64 < 64 := by omega
    simp [*]

@[simp] theorem lowHalf_cat64 (a b : Word) : lowHalf (cat64 a b) = b := by
  apply BitVec.eq_of_getLsbD_eq
  intro i hi
  simp only [cat64, lowHalf, BitVec.getLsbD_extractLsb', BitVec.getLsbD_append]
  simp [hi]

@[simp] theorem highHalf_cat64 (a b : Word) : highHalf (cat64 a b) = a := by
  apply BitVec.eq_of_getLsbD_eq
  intro i hi
  simp only [cat64, highHalf, BitVec.getLsbD_extractLsb', BitVec.getLsbD_append]
  simp [hi]

/-- The payload of a byte list, as a number: its little-endian value, less what the 16 lanes do not hold. -/
theorem payloadOf_toNat (bs : List Byte) : (payloadOf bs).toNat = leNat bs % 2 ^ 128 := by
  induction bs with
  | nil => simp [payloadOf, leNat]
  | cons b bs ih =>
    have hb : b.toNat < 256 := b.isLt
    have hd : (b.setWidth 128) &&& (payloadOf bs <<< 8) = 0#128 := by
      apply BitVec.eq_of_getLsbD_eq
      intro i hi
      by_cases h : i < 8
      · simp [h]
      · have : b.getLsbD i = false := BitVec.getLsbD_of_ge b i (by omega)
        simp [this]
    rw [payloadOf, ← BitVec.add_eq_or_of_and_eq_zero _ _ hd]
    simp only [BitVec.toNat_add, BitVec.toNat_setWidth, BitVec.toNat_shiftLeft, ih, leNat, Nat.shiftLeft_eq]
    omega

end Sys2Proof.Machine
end

