-- ==== Sys2Proof/Laws/Decode.lean ====
section
/-! SUPPORT. The decoder, header by header, and a word's two parts. -/

namespace Sys2Proof

open Machine

@[simp] theorem headerOf_makeWord (hdr : BitVec 8) (d : Payload) : headerOf (makeWord hdr d) = hdr := by
  apply BitVec.eq_of_getLsbD_eq
  intro i hi
  simp only [headerOf, makeWord, BitVec.getLsbD_extractLsb', BitVec.getLsbD_append]
  simp [hi]

@[simp] theorem payloadPart_makeWord (hdr : BitVec 8) (d : Payload) : payloadPart (makeWord hdr d) = d := by
  apply BitVec.eq_of_getLsbD_eq
  intro i hi
  simp only [payloadPart, makeWord, BitVec.getLsbD_extractLsb', BitVec.getLsbD_append]
  simp [hi]

/-- A word is its header and its payload. -/
theorem makeWord_parts (w : CmdWord) : makeWord (headerOf w) (payloadPart w) = w := by
  apply BitVec.eq_of_getLsbD_eq
  intro i hi
  simp only [headerOf, payloadPart, makeWord, BitVec.getLsbD_extractLsb', BitVec.getLsbD_append]
  by_cases h : i < 128
  · simp [h]
  · have h1 : 128 + (i - 128) = i := by omega
    have h2 : i - 128 < 8 := by omega
    simp [h, h1, h2]

/-- A word with RESET's header decodes to RESET. -/
theorem decode_of_reset {w : CmdWord} (h : headerOf w = 0x00#8) :
    decode w = .command (.reset (seedField (payloadPart w))) := by
  simp [decode, h]

/-- A word with BLOCK's header decodes to BLOCK. -/
theorem decode_of_block {w : CmdWord} (h : headerOf w = 0x40#8) :
    decode w = .command (.block (lowHalf (payloadPart w)) (highHalf (payloadPart w))) := by
  simp [decode, h]

/-- A word with one of TAIL's sixteen headers decodes to TAIL with that count. -/
theorem decode_of_tail {w : CmdWord} {n : BitVec 4} (h : headerOf w = 0x8#4 ++ n) :
    decode w = .command (.tail n (payloadPart w)) := by
  have h0 : ∀ n : BitVec 4, (0x8#4 ++ n : BitVec 8) ≠ 0x00#8 ∧ (0x8#4 ++ n : BitVec 8) ≠ 0x40#8 ∧
      (0x8#4 ++ n : BitVec 8).extractLsb' 4 4 = 0x8#4 ∧ nField (0x8#4 ++ n) = n := by decide
  obtain ⟨h1, h2, h3, h4⟩ := h0 n
  simp only [decode, h]
  rw [if_neg h1, if_neg h2, if_pos h3, h4]

/-- A word with HASH's header decodes to HASH. -/
theorem decode_of_hash {w : CmdWord} (h : headerOf w = 0xC0#8) : decode w = .command .hash := by
  simp [decode, h]

/-- What a word can decode to, by its header. -/
theorem decode_cases (w : CmdWord) :
    (headerOf w = 0x00#8 ∧ decode w = .command (.reset (seedField (payloadPart w)))) ∨
    (headerOf w = 0x40#8 ∧ decode w = .command (.block (lowHalf (payloadPart w)) (highHalf (payloadPart w)))) ∨
    ((headerOf w).extractLsb' 4 4 = 0x8#4 ∧ decode w = .command (.tail (nField (headerOf w)) (payloadPart w))) ∨
    (headerOf w = 0xC0#8 ∧ decode w = .command .hash) ∨
    (legalHeader (headerOf w) = false ∧ decode w = .illegal (headerOf w)) := by
  have key : ∀ h : BitVec 8, h ≠ 0x00#8 → h ≠ 0x40#8 → h.extractLsb' 4 4 ≠ 0x8#4 → h ≠ 0xC0#8 →
      legalHeader h = false := by decide
  unfold decode
  split
  · exact .inl ⟨‹_›, rfl⟩
  · split
    · exact .inr (.inl ⟨‹_›, rfl⟩)
    · split
      · exact .inr (.inr (.inl ⟨‹_›, rfl⟩))
      · split
        · exact .inr (.inr (.inr (.inl ⟨‹_›, rfl⟩)))
        · exact .inr (.inr (.inr (.inr ⟨key _ ‹_› ‹_› ‹_› ‹_›, rfl⟩)))

/-- The header `encode` writes. -/
@[simp] theorem headerOf_encode (i : Instr) : headerOf (encode i) = i.header := headerOf_makeWord _ _

/-- The payload `encode` writes. -/
@[simp] theorem payloadPart_encode (i : Instr) : payloadPart (encode i) = i.payload := payloadPart_makeWord _ _

end Sys2Proof
end

