-- ==== Sys2Proof/Laws/PerInstr.lean ====
section
/-! SUPPORT. Statements for all instructions, one lemma per constructor. -/

/-- The canonical word of a command matches the command's row of spec/opcode_table.json under the row's mask. -/
def Sys2Proof.Laws.FitsTableRow.Statement (i : Sys2Proof.Instr) : Prop :=
  Sys2Proof.encode i &&& Sys2Proof.tableMask i = Sys2Proof.tableMatch i

/-- A word under a mask of its top `8` bits shows the header under that mask. -/
theorem Sys2Proof.Laws.makeWord_and_mask (hdr m : BitVec 8) (d : Sys2Proof.Payload) :
    Sys2Proof.makeWord hdr d &&& Sys2Proof.makeWord m 0#128 = Sys2Proof.makeWord (hdr &&& m) 0#128 := by
  apply BitVec.eq_of_getLsbD_eq
  intro i hi
  simp only [Sys2Proof.makeWord, BitVec.getLsbD_and, BitVec.getLsbD_append]
  by_cases h : i < 128 <;> simp [h]

theorem Sys2Proof.Laws.FitsTableRow.reset (seed : BitVec 32) :
    Sys2Proof.Laws.FitsTableRow.Statement (.reset seed) :=
  (Sys2Proof.Laws.makeWord_and_mask 0x00#8 0xff#8 _).trans (by simp only [Sys2Proof.tableMatch]; decide)

theorem Sys2Proof.Laws.FitsTableRow.block (k1 k2 : BitVec 64) :
    Sys2Proof.Laws.FitsTableRow.Statement (.block k1 k2) :=
  (Sys2Proof.Laws.makeWord_and_mask 0x40#8 0xff#8 _).trans (by simp only [Sys2Proof.tableMatch]; decide)

theorem Sys2Proof.Laws.FitsTableRow.tail (n : BitVec 4) (data : BitVec 128) :
    Sys2Proof.Laws.FitsTableRow.Statement (.tail n data) :=
  (Sys2Proof.Laws.makeWord_and_mask (0x8#4 ++ n) 0xf0#8 _).trans (by simp only [Sys2Proof.tableMatch]; revert n; decide)

theorem Sys2Proof.Laws.FitsTableRow.hash : Sys2Proof.Laws.FitsTableRow.Statement .hash :=
  (Sys2Proof.Laws.makeWord_and_mask 0xC0#8 0xff#8 _).trans (by simp only [Sys2Proof.tableMatch]; decide)
end

