-- ==== Sys2Proof/Laws/Ports.lean ====
section
/-! SUPPORT. The handshake signals: what each being 1 says of the state. -/

namespace Sys2Proof.Machine

@[simp] theorem nextEdge_nil : nextEdge [] = .accept := rfl
@[simp] theorem nextEdge_issue (w : CmdWord) (rest : List Move) : nextEdge (.issue w :: rest) = nextEdge rest := rfl
@[simp] theorem nextEdge_observe (rest : List Move) : nextEdge (.observe :: rest) = nextEdge rest := rfl
@[simp] theorem nextEdge_accept (rest : List Move) : nextEdge (.accept :: rest) = .accept := rfl
@[simp] theorem nextEdge_take (rest : List Move) : nextEdge (.take :: rest) = .take := rfl
@[simp] theorem nextEdge_wait (rest : List Move) : nextEdge (.wait :: rest) = .wait := rfl
@[simp] theorem nextEdge_hardReset (rest : List Move) : nextEdge (.hardReset :: rest) = .hardReset := rfl

/-- `CMD_VALID` says that a word is offered. -/
theorem portCmdValid_eq_one {s : State} : portCmdValid s = 1#1 ↔ ∃ w ws, s.cmds = w :: ws := by
  unfold portCmdValid
  cases s.cmds <;> simp

/-- `CMD_READY` says that the next edge is the core's and that the core can take a word. -/
theorem portCmdReady_eq_one {s : State} : portCmdReady s = 1#1 ↔ nextEdge s.sched = .accept ∧ canAccept s = true := by
  unfold portCmdReady
  by_cases h : nextEdge s.sched = .accept <;> cases canAccept s <;> simp [h]

/-- `CMD_READY` is 1 or 0. -/
theorem portCmdReady_eq_zero {s : State} :
    portCmdReady s = 0#1 ↔ ¬ (nextEdge s.sched = .accept ∧ canAccept s = true) := by
  unfold portCmdReady
  by_cases h : nextEdge s.sched = .accept <;> cases canAccept s <;> simp [h]

/-- In the fault state the core can take nothing. -/
theorem canAccept_of_fault {s : State} (h : s.fault = true) : canAccept s = false := by
  unfold canAccept
  split <;> simp [acceptsWord, h]

/-- With a word on `CMD` the core can take it or not. -/
theorem canAccept_of_offered {s : State} {w : CmdWord} {ws : List CmdWord} (h : s.cmds = w :: ws) :
    canAccept s = acceptsWord s w := by
  simp [canAccept, h]

/-- At an edge, the next edge is the event itself. -/
theorem atEdge_nextEdge {s : State} (h : atEdge s = true) : nextEdge s.sched = s.sched.head?.getD .accept := by
  unfold atEdge at h
  split at h <;> simp_all

/-- The word accepted in a step is the one on `CMD`, at an edge that is the core's. -/
theorem acceptedWord_eq_some {s : State} {w : CmdWord} :
    acceptedWord s = some w ↔ ∃ ws, s.cmds = w :: ws ∧ s.sched.head?.getD .accept = .accept ∧ acceptsWord s w = true := by
  cases hc : s.cmds with
  | nil => simp [acceptedWord, hc]
  | cons v ws =>
    by_cases h : s.sched.head?.getD .accept = .accept ∧ acceptsWord s v = true
    · simp only [acceptedWord, hc, if_pos h, Option.some.injEq, List.cons.injEq]
      exact ⟨fun e => ⟨ws, ⟨e, rfl⟩, e ▸ h⟩, fun ⟨_, ⟨e, _⟩, _⟩ => e⟩
    · simp only [acceptedWord, hc, if_neg h, List.cons.injEq]
      exact ⟨fun e => (nomatch e), fun ⟨_, ⟨e, _⟩, h2⟩ => absurd (e ▸ h2) h⟩

end Sys2Proof.Machine
end

