-- ==== Sys2Proof/Laws/State.lean ====
section
/-! SUPPORT. One lemma per field per operation on state, and what taking a digest does. -/

namespace Sys2Proof.Machine

@[simp] theorem setHasher_h1 (h : Hasher) (s : State) : (setHasher h s).h1 = h.h1 := rfl
@[simp] theorem setHasher_h2 (h : Hasher) (s : State) : (setHasher h s).h2 = h.h2 := rfl
@[simp] theorem setHasher_length (h : Hasher) (s : State) : (setHasher h s).length = h.length := rfl
@[simp] theorem setHasher_fault (h : Hasher) (s : State) : (setHasher h s).fault = s.fault := rfl
@[simp] theorem setHasher_faultInfo (h : Hasher) (s : State) : (setHasher h s).faultInfo = s.faultInfo := rfl
@[simp] theorem setHasher_rspQ (h : Hasher) (s : State) : (setHasher h s).rspQ = s.rspQ := rfl
@[simp] theorem setHasher_cfg (h : Hasher) (s : State) : (setHasher h s).cfg = s.cfg := rfl
@[simp] theorem setHasher_cmds (h : Hasher) (s : State) : (setHasher h s).cmds = s.cmds := rfl
@[simp] theorem setHasher_taken (h : Hasher) (s : State) : (setHasher h s).taken = s.taken := rfl
@[simp] theorem setHasher_sched (h : Hasher) (s : State) : (setHasher h s).sched = s.sched := rfl

@[simp] theorem rspPush_h1 (d : RspWord) (s : State) : (rspPush d s).h1 = s.h1 := rfl
@[simp] theorem rspPush_h2 (d : RspWord) (s : State) : (rspPush d s).h2 = s.h2 := rfl
@[simp] theorem rspPush_length (d : RspWord) (s : State) : (rspPush d s).length = s.length := rfl
@[simp] theorem rspPush_fault (d : RspWord) (s : State) : (rspPush d s).fault = s.fault := rfl
@[simp] theorem rspPush_faultInfo (d : RspWord) (s : State) : (rspPush d s).faultInfo = s.faultInfo := rfl
@[simp] theorem rspPush_rspQ (d : RspWord) (s : State) : (rspPush d s).rspQ = s.rspQ ++ [d] := rfl
@[simp] theorem rspPush_cfg (d : RspWord) (s : State) : (rspPush d s).cfg = s.cfg := rfl
@[simp] theorem rspPush_cmds (d : RspWord) (s : State) : (rspPush d s).cmds = s.cmds := rfl
@[simp] theorem rspPush_taken (d : RspWord) (s : State) : (rspPush d s).taken = s.taken := rfl
@[simp] theorem rspPush_sched (d : RspWord) (s : State) : (rspPush d s).sched = s.sched := rfl

@[simp] theorem raiseIllegalCommand_h1 (hdr : BitVec 8) (s : State) : (raiseIllegalCommand hdr s).h1 = s.h1 := rfl
@[simp] theorem raiseIllegalCommand_h2 (hdr : BitVec 8) (s : State) : (raiseIllegalCommand hdr s).h2 = s.h2 := rfl
@[simp] theorem raiseIllegalCommand_length (hdr : BitVec 8) (s : State) : (raiseIllegalCommand hdr s).length = s.length := rfl
@[simp] theorem raiseIllegalCommand_fault (hdr : BitVec 8) (s : State) : (raiseIllegalCommand hdr s).fault = true := rfl
@[simp] theorem raiseIllegalCommand_faultInfo (hdr : BitVec 8) (s : State) : (raiseIllegalCommand hdr s).faultInfo = hdr := rfl
@[simp] theorem raiseIllegalCommand_rspQ (hdr : BitVec 8) (s : State) : (raiseIllegalCommand hdr s).rspQ = s.rspQ := rfl
@[simp] theorem raiseIllegalCommand_cfg (hdr : BitVec 8) (s : State) : (raiseIllegalCommand hdr s).cfg = s.cfg := rfl
@[simp] theorem raiseIllegalCommand_cmds (hdr : BitVec 8) (s : State) : (raiseIllegalCommand hdr s).cmds = s.cmds := rfl
@[simp] theorem raiseIllegalCommand_taken (hdr : BitVec 8) (s : State) : (raiseIllegalCommand hdr s).taken = s.taken := rfl
@[simp] theorem raiseIllegalCommand_sched (hdr : BitVec 8) (s : State) : (raiseIllegalCommand hdr s).sched = s.sched := rfl

@[simp] theorem hardwareReset_h1 (s : State) : (hardwareReset s).h1 = 0#64 := rfl
@[simp] theorem hardwareReset_h2 (s : State) : (hardwareReset s).h2 = 0#64 := rfl
@[simp] theorem hardwareReset_length (s : State) : (hardwareReset s).length = 0#64 := rfl
@[simp] theorem hardwareReset_fault (s : State) : (hardwareReset s).fault = false := rfl
@[simp] theorem hardwareReset_faultInfo (s : State) : (hardwareReset s).faultInfo = 0x00#8 := rfl
@[simp] theorem hardwareReset_rspQ (s : State) : (hardwareReset s).rspQ = [] := rfl
@[simp] theorem hardwareReset_cfg (s : State) : (hardwareReset s).cfg = s.cfg := rfl
@[simp] theorem hardwareReset_cmds (s : State) : (hardwareReset s).cmds = s.cmds := rfl
@[simp] theorem hardwareReset_taken (s : State) : (hardwareReset s).taken = s.taken := rfl
@[simp] theorem hardwareReset_sched (s : State) : (hardwareReset s).sched = s.sched := rfl

@[simp] theorem issueWord_h1 (w : CmdWord) (s : State) : (issueWord w s).h1 = s.h1 := rfl
@[simp] theorem issueWord_h2 (w : CmdWord) (s : State) : (issueWord w s).h2 = s.h2 := rfl
@[simp] theorem issueWord_length (w : CmdWord) (s : State) : (issueWord w s).length = s.length := rfl
@[simp] theorem issueWord_fault (w : CmdWord) (s : State) : (issueWord w s).fault = s.fault := rfl
@[simp] theorem issueWord_faultInfo (w : CmdWord) (s : State) : (issueWord w s).faultInfo = s.faultInfo := rfl
@[simp] theorem issueWord_rspQ (w : CmdWord) (s : State) : (issueWord w s).rspQ = s.rspQ := rfl
@[simp] theorem issueWord_cfg (w : CmdWord) (s : State) : (issueWord w s).cfg = s.cfg := rfl
@[simp] theorem issueWord_cmds (w : CmdWord) (s : State) : (issueWord w s).cmds = s.cmds ++ [w] := rfl
@[simp] theorem issueWord_taken (w : CmdWord) (s : State) : (issueWord w s).taken = s.taken := rfl
@[simp] theorem issueWord_sched (w : CmdWord) (s : State) : (issueWord w s).sched = s.sched := rfl

@[simp] theorem withCmds_h1 (ws : List CmdWord) (s : State) : (withCmds ws s).h1 = s.h1 := rfl
@[simp] theorem withCmds_h2 (ws : List CmdWord) (s : State) : (withCmds ws s).h2 = s.h2 := rfl
@[simp] theorem withCmds_length (ws : List CmdWord) (s : State) : (withCmds ws s).length = s.length := rfl
@[simp] theorem withCmds_fault (ws : List CmdWord) (s : State) : (withCmds ws s).fault = s.fault := rfl
@[simp] theorem withCmds_faultInfo (ws : List CmdWord) (s : State) : (withCmds ws s).faultInfo = s.faultInfo := rfl
@[simp] theorem withCmds_rspQ (ws : List CmdWord) (s : State) : (withCmds ws s).rspQ = s.rspQ := rfl
@[simp] theorem withCmds_cfg (ws : List CmdWord) (s : State) : (withCmds ws s).cfg = s.cfg := rfl
@[simp] theorem withCmds_cmds (ws : List CmdWord) (s : State) : (withCmds ws s).cmds = ws := rfl
@[simp] theorem withCmds_taken (ws : List CmdWord) (s : State) : (withCmds ws s).taken = s.taken := rfl
@[simp] theorem withCmds_sched (ws : List CmdWord) (s : State) : (withCmds ws s).sched = s.sched := rfl

@[simp] theorem withSched_h1 (rest : List Move) (s : State) : (withSched rest s).h1 = s.h1 := rfl
@[simp] theorem withSched_h2 (rest : List Move) (s : State) : (withSched rest s).h2 = s.h2 := rfl
@[simp] theorem withSched_length (rest : List Move) (s : State) : (withSched rest s).length = s.length := rfl
@[simp] theorem withSched_fault (rest : List Move) (s : State) : (withSched rest s).fault = s.fault := rfl
@[simp] theorem withSched_faultInfo (rest : List Move) (s : State) : (withSched rest s).faultInfo = s.faultInfo := rfl
@[simp] theorem withSched_rspQ (rest : List Move) (s : State) : (withSched rest s).rspQ = s.rspQ := rfl
@[simp] theorem withSched_cfg (rest : List Move) (s : State) : (withSched rest s).cfg = s.cfg := rfl
@[simp] theorem withSched_cmds (rest : List Move) (s : State) : (withSched rest s).cmds = s.cmds := rfl
@[simp] theorem withSched_taken (rest : List Move) (s : State) : (withSched rest s).taken = s.taken := rfl
@[simp] theorem withSched_sched (rest : List Move) (s : State) : (withSched rest s).sched = rest := rfl

/-- Writing the schedule back changes nothing. -/
@[simp] theorem withSched_self (s : State) : withSched s.sched s = s := rfl

/-- Writing the offered words back changes nothing. -/
@[simp] theorem withCmds_self (s : State) : withCmds s.cmds s = s := rfl

@[simp] theorem hasherOf_withCmds (ws : List CmdWord) (s : State) : hasherOf (withCmds ws s) = hasherOf s := rfl
@[simp] theorem hasherOf_withSched (rest : List Move) (s : State) : hasherOf (withSched rest s) = hasherOf s := rfl
@[simp] theorem withCmds_setHasher (ws : List CmdWord) (h : Hasher) (s : State) :
    withCmds ws (setHasher h s) = setHasher h (withCmds ws s) := (rfl)
@[simp] theorem withSched_setHasher (rest : List Move) (h : Hasher) (s : State) :
    withSched rest (setHasher h s) = setHasher h (withSched rest s) := (rfl)

@[simp] theorem withCmds_rspPush (ws : List CmdWord) (d : RspWord) (s : State) :
    withCmds ws (rspPush d s) = rspPush d (withCmds ws s) := rfl
@[simp] theorem withSched_rspPush (rest : List Move) (d : RspWord) (s : State) :
    withSched rest (rspPush d s) = rspPush d (withSched rest s) := rfl
@[simp] theorem withCmds_withCmds (ws vs : List CmdWord) (s : State) : withCmds ws (withCmds vs s) = withCmds ws s := rfl
@[simp] theorem withSched_withSched (rest more : List Move) (s : State) :
    withSched rest (withSched more s) = withSched rest s := rfl
@[simp] theorem hasherOf_h1 (s : State) : (hasherOf s).h1 = s.h1 := rfl
@[simp] theorem hasherOf_h2 (s : State) : (hasherOf s).h2 = s.h2 := rfl
@[simp] theorem hasherOf_length (s : State) : (hasherOf s).length = s.length := rfl
@[simp] theorem hasherOf_setHasher (h : Hasher) (s : State) : hasherOf (setHasher h s) = h := rfl
@[simp] theorem hasherOf_rspPush (d : RspWord) (s : State) : hasherOf (rspPush d s) = hasherOf s := rfl
@[simp] theorem hasherOf_raiseIllegalCommand (hdr : BitVec 8) (s : State) :
    hasherOf (raiseIllegalCommand hdr s) = hasherOf s := rfl
@[simp] theorem hasherOf_issueWord (w : CmdWord) (s : State) : hasherOf (issueWord w s) = hasherOf s := rfl
@[simp] theorem hasherOf_hardwareReset (s : State) :
    hasherOf (hardwareReset s) = { h1 := 0#64, h2 := 0#64, length := 0#64 } := rfl
@[simp] theorem setHasher_hasherOf (s : State) : setHasher (hasherOf s) s = s := rfl
@[simp] theorem setHasher_setHasher (g h : Hasher) (s : State) : setHasher g (setHasher h s) = setHasher g s := (rfl)

/-- With nothing queued the host takes nothing. -/
theorem takeDigest_of_empty {s : State} (h : s.rspQ = []) : takeDigest s = s := by
  simp [takeDigest, h]

/-- With a digest queued the host takes the oldest. -/
theorem takeDigest_of_cons {s : State} {d : RspWord} {rest : List RspWord} (h : s.rspQ = d :: rest) :
    takeDigest s = { s with rspQ := rest, taken := s.taken ++ [d] } := by
  simp [takeDigest, h]

/-- Taking a digest is one of two things. -/
theorem takeDigest_cases (s : State) :
    (s.rspQ = [] ∧ takeDigest s = s) ∨
      ∃ d rest, s.rspQ = d :: rest ∧ takeDigest s = { s with rspQ := rest, taken := s.taken ++ [d] } := by
  cases h : s.rspQ with
  | nil => exact .inl ⟨rfl, takeDigest_of_empty h⟩
  | cons d rest => exact .inr ⟨d, rest, rfl, takeDigest_of_cons h⟩

@[simp] theorem takeDigest_h1 (s : State) : (takeDigest s).h1 = s.h1 := by
  obtain ⟨_, h⟩ | ⟨_, _, _, h⟩ := takeDigest_cases s <;> simp [h]
@[simp] theorem takeDigest_h2 (s : State) : (takeDigest s).h2 = s.h2 := by
  obtain ⟨_, h⟩ | ⟨_, _, _, h⟩ := takeDigest_cases s <;> simp [h]
@[simp] theorem takeDigest_length (s : State) : (takeDigest s).length = s.length := by
  obtain ⟨_, h⟩ | ⟨_, _, _, h⟩ := takeDigest_cases s <;> simp [h]
@[simp] theorem takeDigest_fault (s : State) : (takeDigest s).fault = s.fault := by
  obtain ⟨_, h⟩ | ⟨_, _, _, h⟩ := takeDigest_cases s <;> simp [h]
@[simp] theorem takeDigest_faultInfo (s : State) : (takeDigest s).faultInfo = s.faultInfo := by
  obtain ⟨_, h⟩ | ⟨_, _, _, h⟩ := takeDigest_cases s <;> simp [h]
@[simp] theorem takeDigest_cfg (s : State) : (takeDigest s).cfg = s.cfg := by
  obtain ⟨_, h⟩ | ⟨_, _, _, h⟩ := takeDigest_cases s <;> simp [h]
@[simp] theorem takeDigest_cmds (s : State) : (takeDigest s).cmds = s.cmds := by
  obtain ⟨_, h⟩ | ⟨_, _, _, h⟩ := takeDigest_cases s <;> simp [h]
@[simp] theorem takeDigest_sched (s : State) : (takeDigest s).sched = s.sched := by
  obtain ⟨_, h⟩ | ⟨_, _, _, h⟩ := takeDigest_cases s <;> simp [h]
@[simp] theorem takeDigest_setHasher (h : Hasher) (s : State) :
    takeDigest (setHasher h s) = setHasher h (takeDigest s) := by
  cases hq : s.rspQ with
  | nil => rw [takeDigest_of_empty hq, takeDigest_of_empty (s := setHasher h s) hq]
  | cons d rest => rw [takeDigest_of_cons hq, takeDigest_of_cons (s := setHasher h s) hq]; rfl
@[simp] theorem hasherOf_takeDigest (s : State) : hasherOf (takeDigest s) = hasherOf s := by
  simp [hasherOf]

/-- The digests the host has and those still queued, in order: taking moves one over and changes nothing of it. -/
@[simp] theorem takeDigest_taken_append_rspQ (s : State) :
    (takeDigest s).taken ++ (takeDigest s).rspQ = s.taken ++ s.rspQ := by
  obtain ⟨_, h⟩ | ⟨d, rest, hq, h⟩ := takeDigest_cases s
  · rw [h]
  · simp [h, hq]

end Sys2Proof.Machine
end

