-- ==== Sys2Proof/Laws/Step.lean ====
section
/-! SUPPORT. What a step can do: the meanings, an accepted word, the core's turn, an event, a step. -/

namespace Sys2Proof.Machine

/-- RESET's next state. -/
theorem exec_reset (seed : BitVec 32) (s : State) :
    exec (.reset seed) s = .next (setHasher (seedHasher s.cfg.seedExt seed) s) := (rfl)

/-- BLOCK's next state. -/
theorem exec_block (k1 k2 : Word) (s : State) :
    exec (.block k1 k2) s = .next (setHasher (blockHasher k1 k2 (hasherOf s)) s) := (rfl)

/-- TAIL's next state: the assertion on the tail length never fires. -/
theorem exec_tail (n : BitVec 4) (data : Payload) (s : State) :
    exec (.tail n data) s = .next (setHasher (tailHasher n data (hasherOf s)) s) := by
  have : n.toNat ≤ 15 := by have := n.isLt; omega
  simp [exec, execTail, this]

/-- HASH's next state. -/
theorem exec_hash (s : State) : exec .hash s = .next (rspPush (digestOf (hasherOf s)) s) := (rfl)

/-- The state RESET leaves, read off its outcome. -/
theorem exec_reset_next {seed : BitVec 32} {s t : State} (h : exec (.reset seed) s = .next t) :
    t = setHasher (seedHasher s.cfg.seedExt seed) s := by
  rw [exec_reset] at h
  exact (Host.Outcome.next.inj h).symm

/-- The state BLOCK leaves, read off its outcome. -/
theorem exec_block_next {k1 k2 : Word} {s t : State} (h : exec (.block k1 k2) s = .next t) :
    t = setHasher (blockHasher k1 k2 (hasherOf s)) s := by
  rw [exec_block] at h
  exact (Host.Outcome.next.inj h).symm

/-- The state TAIL leaves, read off its outcome. -/
theorem exec_tail_next {n : BitVec 4} {data : Payload} {s t : State} (h : exec (.tail n data) s = .next t) :
    t = setHasher (tailHasher n data (hasherOf s)) s := by
  rw [exec_tail] at h
  exact (Host.Outcome.next.inj h).symm

/-- The state HASH leaves, read off its outcome. -/
theorem exec_hash_next {s t : State} (h : exec .hash s = .next t) : t = rspPush (digestOf (hasherOf s)) s := by
  rw [exec_hash] at h
  exact (Host.Outcome.next.inj h).symm

/-- Every command goes on to a next state: HASH by appending a digest, the others by writing the hasher triple. -/
theorem exec_cases (i : Instr) (s : State) :
    (i ≠ .hash ∧ ∃ h, exec i s = .next (setHasher h s)) ∨
      (i = .hash ∧ exec i s = .next (rspPush (digestOf (hasherOf s)) s)) := by
  cases i with
  | reset seed => exact .inl ⟨by simp, _, exec_reset seed s⟩
  | block k1 k2 => exact .inl ⟨by simp, _, exec_block k1 k2 s⟩
  | tail n data => exact .inl ⟨by simp, _, exec_tail n data s⟩
  | hash => exact .inr ⟨rfl, exec_hash s⟩

/-- An accepted word: a command, or the IllegalCommand fault with the word's own header. -/
theorem executeWord_cases (w : CmdWord) (s : State) :
    (∃ i, decode w = .command i ∧ executeWord w s = exec i s) ∨
      (legalHeader (headerOf w) = false ∧ decode w = .illegal (headerOf w) ∧
        executeWord w s = .next (raiseIllegalCommand (headerOf w) s)) := by
  obtain ⟨_, h⟩ | ⟨_, h⟩ | ⟨_, h⟩ | ⟨_, h⟩ | ⟨hl, h⟩ := decode_cases w
  · exact .inl ⟨_, h, by simp [executeWord, h]⟩
  · exact .inl ⟨_, h, by simp [executeWord, h]⟩
  · exact .inl ⟨_, h, by simp [executeWord, h]⟩
  · exact .inl ⟨_, h, by simp [executeWord, h]⟩
  · exact .inr ⟨hl, h, by simp [executeWord, h]⟩

/-- The core's turn with no word offered. -/
theorem coreStep_of_idle {s : State} (h : s.cmds = []) : coreStep s = .next s := by simp [coreStep, h]

/-- The core's turn when it takes the offered word. -/
theorem coreStep_of_accepts {s : State} {w : CmdWord} {ws : List CmdWord} (h : s.cmds = w :: ws)
    (ha : acceptsWord s w = true) : coreStep s = executeWord w (withCmds ws s) := by
  simp [coreStep, h, ha]

/-- The core's turn when the offered word stays offered. -/
theorem coreStep_of_held {s : State} {w : CmdWord} {ws : List CmdWord} (h : s.cmds = w :: ws)
    (ha : acceptsWord s w = false) : coreStep s = .next s := by
  simp [coreStep, h, ha]

/-- The core's turn is one of two things: nothing, or the execution of the offered word. -/
theorem coreStep_cases (s : State) :
    coreStep s = .next s ∨
      ∃ w ws, s.cmds = w :: ws ∧ acceptsWord s w = true ∧ coreStep s = executeWord w (withCmds ws s) := by
  cases h : s.cmds with
  | nil => exact .inl (coreStep_of_idle h)
  | cons w ws =>
    cases ha : acceptsWord s w with
    | false => exact .inl (coreStep_of_held h ha)
    | true => exact .inr ⟨w, ws, rfl, ha, coreStep_of_accepts h ha⟩

/-- A step with no event listed is the core's turn. -/
theorem step_of_unscheduled {s : State} (h : s.sched = []) : step s = coreStep s := by
  simp [step, agentStep, h]

/-- A step with an event listed is that event. -/
theorem step_of_scheduled {s : State} {m : Move} {rest : List Move} (h : s.sched = m :: rest) :
    step s = runMove m (withSched rest s) := by
  simp [step, agentStep, h]

end Sys2Proof.Machine
end

