-- ==== Sys2Proof/Laws/StepCases.lean ====
section
/-! SUPPORT. Everything a step can do, said once: six cases, each with the state it leaves. -/

namespace Sys2Proof.Machine

/-- The listed headers are the ones that match a row of the opcode table. -/
theorem listedHeader_iff : ∀ h : BitVec 8, ListedHeader h ↔ legalHeader h = true := by decide

/-- What a step from `s` to `t` was. -/
inductive StepCase (s t : State) : Prop
  /-- Nothing was handed over; at most an event was used up. -/
  | idle (hm : s.sched.head? ≠ some .hardReset) (hw : acceptedWord s = none)
      (e : t = withSched s.sched.tail s)
  /-- An accepted word was the command `i`. -/
  | command (i : Instr) (w : CmdWord) (ws : List CmdWord) (rest : List Move) (ht : CoreTurn s rest)
      (hc : s.cmds = w :: ws) (ha : acceptsWord s w = true) (hd : decode w = .command i)
      (hw : acceptedWord s = some w) (e : exec i (withCmds ws (withSched rest s)) = .next t)
  /-- An accepted word had an illegal header. -/
  | illegal (w : CmdWord) (ws : List CmdWord) (rest : List Move) (ht : CoreTurn s rest) (hc : s.cmds = w :: ws)
      (ha : acceptsWord s w = true) (hl : legalHeader (headerOf w) = false) (hd : decode w = .illegal (headerOf w))
      (hw : acceptedWord s = some w)
      (e : t = raiseIllegalCommand (headerOf w) (withCmds ws (withSched rest s)))
  /-- The host offered one more word. -/
  | issue (w : CmdWord) (rest : List Move) (h : s.sched = .issue w :: rest) (hw : acceptedWord s = none)
      (e : t = issueWord w (withSched rest s))
  /-- The host took a digest, if there was one. -/
  | take (rest : List Move) (h : s.sched = .take :: rest) (hw : acceptedWord s = none)
      (e : t = takeDigest (withSched rest s))
  /-- Hardware reset. -/
  | hardReset (rest : List Move) (h : s.sched = .hardReset :: rest) (hw : acceptedWord s = none)
      (e : t = hardwareReset (withSched rest s))

/-- With no word accepted no command runs. -/
theorem nextCommand_of_none {s : State} (h : acceptedWord s = none) : nextCommand s = none := by simp [nextCommand, h]

/-- The command that runs is the accepted word's. -/
theorem nextCommand_of_command {s : State} {w : CmdWord} {i : Instr} (h : acceptedWord s = some w)
    (hd : decode w = .command i) : nextCommand s = some i := by simp [nextCommand, h, hd]

/-- No command runs for an accepted word with an illegal header. -/
theorem nextCommand_of_illegal {s : State} {w : CmdWord} {hdr : BitVec 8} (h : acceptedWord s = some w)
    (hd : decode w = .illegal hdr) : nextCommand s = none := by simp [nextCommand, h, hd]

/-- On the core's turn the step is the core's, on the state with the event used up. -/
theorem step_of_coreTurn {s : State} {rest : List Move} (h : CoreTurn s rest) :
    step s = coreStep (withSched rest s) := by
  obtain ⟨h, rfl⟩ | h := h
  · rw [step_of_unscheduled h, ← h, withSched_self]
  · rw [step_of_scheduled h]
    rfl

/-- The cases of the core's turn. -/
theorem stepCase_of_coreTurn {s t : State} {rest : List Move} (ht : CoreTurn s rest) (h : step s = .next t) :
    StepCase s t := by
  have htail : s.sched.tail = rest := by
    obtain ⟨h, rfl⟩ | h := ht <;> simp [h]
  have hhead : s.sched.head? ≠ some .hardReset := by
    obtain ⟨h, _⟩ | h := ht <;> simp [h]
  have hturn : s.sched.head?.getD .accept = .accept := by
    obtain ⟨h, _⟩ | h := ht <;> simp [h]
  rw [step_of_coreTurn ht] at h
  cases hc : s.cmds with
  | nil =>
    rw [coreStep_of_idle (s := withSched rest s) hc] at h
    cases h
    exact .idle hhead (by simp [acceptedWord, hc]) (by rw [htail])
  | cons w ws =>
    cases ha : acceptsWord s w with
    | false =>
      rw [coreStep_of_held (s := withSched rest s) hc ha] at h
      cases h
      exact .idle hhead (by simp [acceptedWord, hc, ha]) (by rw [htail])
    | true =>
      rw [coreStep_of_accepts (s := withSched rest s) hc ha] at h
      obtain ⟨i, hd, h2⟩ | ⟨hl, hd, h2⟩ := executeWord_cases w (withCmds ws (withSched rest s))
      · exact .command i w ws rest ht hc ha hd (by simp [acceptedWord, hc, ha, hturn]) (h2.symm.trans h)
      · rw [h2] at h
        cases h
        exact .illegal w ws rest ht hc ha hl hd (by simp [acceptedWord, hc, ha, hturn]) rfl

/-- No word is accepted at an event that is not the core's. -/
theorem acceptedWord_of_hostMove {s : State} {m : Move} {rest : List Move} (h : s.sched = m :: rest) (hm : m ≠ .accept) :
    acceptedWord s = none := by
  unfold acceptedWord
  split <;> simp [h, hm]

/-- Everything a step can do. -/
theorem step_cases {s t : State} (h : step s = .next t) : StepCase s t := by
  cases hs : s.sched with
  | nil => exact stepCase_of_coreTurn (.inl ⟨hs, rfl⟩) h
  | cons m rest =>
    have hw : m ≠ .accept → acceptedWord s = none := acceptedWord_of_hostMove hs
    have hstep := step_of_scheduled hs
    cases m with
    | accept => exact stepCase_of_coreTurn (.inr hs) h
    | issue w =>
      cases hstep.symm.trans h
      exact .issue w rest hs (hw (by simp)) rfl
    | take =>
      cases hstep.symm.trans h
      exact .take rest hs (hw (by simp)) rfl
    | hardReset =>
      cases hstep.symm.trans h
      exact .hardReset rest hs (hw (by simp)) rfl
    | observe =>
      cases hstep.symm.trans h
      exact .idle (by simp [hs]) (hw (by simp)) (by simp [hs])
    | wait =>
      cases hstep.symm.trans h
      exact .idle (by simp [hs]) (hw (by simp)) (by simp [hs])

end Sys2Proof.Machine
end

