-- ==== Sys2Proof/Laws/Run.lean ====
section
/-! SUPPORT. Runs: a run one step longer, a sequence of commands one command longer, what a command leaves alone, and the schedule
along a step. -/

namespace Sys2Proof.Machine

/-- A run of no step. -/
@[simp] theorem run_zero (s : State) : Host.Core.run Sys2Proof.core 0 s = .next s := rfl

/-- A run of one more step, whose first step goes on. -/
theorem run_succ_of_step {k : Nat} {s t : State} (h : step s = .next t) :
    Host.Core.run Sys2Proof.core (k + 1) s = Host.Core.run Sys2Proof.core k t := by
  have : Sys2Proof.core.step s = .next t := h
  simp [Host.Core.run, this]

/-- In a run of no step no word is accepted. -/
@[simp] theorem acceptedWords_zero (s : State) : acceptedWords 0 s = [] := rfl

/-- The words accepted in a run of one more step, whose first step goes on. -/
theorem acceptedWords_succ_of_step {k : Nat} {s t : State} (h : step s = .next t) :
    acceptedWords (k + 1) s = (acceptedWord s).toList ++ acceptedWords k t := by
  simp [acceptedWords, h]

/-- A command sequence whose first command goes on. -/
theorem runInstrs_cons {i : Instr} {is : List Instr} {s t : State} (h : exec i s = .next t) :
    runInstrs (i :: is) s = runInstrs is t := by
  simp [runInstrs, h]

/-- What no command touches. -/
theorem exec_frame {i : Instr} {s t : State} (h : exec i s = .next t) :
    t.fault = s.fault ∧ t.faultInfo = s.faultInfo ∧ t.cfg = s.cfg ∧ t.cmds = s.cmds ∧ t.taken = s.taken ∧
      t.sched = s.sched := by
  obtain ⟨_, _, he⟩ | ⟨_, he⟩ := exec_cases i s <;> cases he.symm.trans h <;> simp

/-- What a command does depends on no word still offered. -/
theorem exec_withCmds {i : Instr} {s t : State} (ws : List CmdWord) (h : exec i s = .next t) :
    exec i (withCmds ws s) = .next (withCmds ws t) := by
  cases i with
  | reset seed => rw [exec_reset_next h, exec_reset, withCmds_setHasher, withCmds_cfg]
  | block k1 k2 => rw [exec_block_next h, exec_block, withCmds_setHasher, hasherOf_withCmds]
  | tail n data => rw [exec_tail_next h, exec_tail, withCmds_setHasher, hasherOf_withCmds]
  | hash => rw [exec_hash_next h, exec_hash, withCmds_rspPush, hasherOf_withCmds]

/-- What a command does depends on no event still to come. -/
theorem exec_withSched {i : Instr} {s t : State} (rest : List Move) (h : exec i s = .next t) :
    exec i (withSched rest s) = .next (withSched rest t) := by
  cases i with
  | reset seed => rw [exec_reset_next h, exec_reset, withSched_setHasher, withSched_cfg]
  | block k1 k2 => rw [exec_block_next h, exec_block, withSched_setHasher, hasherOf_withSched]
  | tail n data => rw [exec_tail_next h, exec_tail, withSched_setHasher, hasherOf_withSched]
  | hash => rw [exec_hash_next h, exec_hash, withSched_rspPush, hasherOf_withSched]

/-- A step uses one event up and adds none. -/
theorem sched_of_step {s t : State} (h : step s = .next t) : t.sched = s.sched.tail := by
  have turn : ∀ rest, CoreTurn s rest → rest = s.sched.tail := by
    intro rest ht
    obtain ⟨hs, rfl⟩ | hs := ht <;> simp [hs]
  cases step_cases h with
  | idle _ _ e => subst e; rfl
  | command i w ws rest ht _ _ _ _ e => rw [(exec_frame e).2.2.2.2.2]; exact turn _ ht
  | illegal w ws rest ht _ _ _ _ _ e => subst e; exact turn _ ht
  | issue w rest hs _ e => subst e; simp [hs]
  | take rest hs _ e => subst e; simp [hs]
  | hardReset rest hs _ e => subst e; simp [hs]

/-- An event still to come after a step was to come before it. -/
theorem mem_sched_of_step {s t : State} (h : step s = .next t) {m : Move} (hm : m ∈ t.sched) : m ∈ s.sched :=
  List.mem_of_mem_tail (sched_of_step h ▸ hm)

@[simp] theorem emitted_setHasher (h : Hasher) (s : State) : emitted (setHasher h s) = emitted s := rfl
@[simp] theorem emitted_rspPush (d : RspWord) (s : State) : emitted (rspPush d s) = emitted s ++ [d] :=
  (List.append_assoc _ _ _).symm
@[simp] theorem emitted_raiseIllegalCommand (hdr : BitVec 8) (s : State) :
    emitted (raiseIllegalCommand hdr s) = emitted s := rfl
@[simp] theorem emitted_hardwareReset (s : State) : emitted (hardwareReset s) = s.taken := List.append_nil _
@[simp] theorem emitted_issueWord (w : CmdWord) (s : State) : emitted (issueWord w s) = emitted s := rfl
@[simp] theorem emitted_withCmds (ws : List CmdWord) (s : State) : emitted (withCmds ws s) = emitted s := rfl
@[simp] theorem emitted_withSched (rest : List Move) (s : State) : emitted (withSched rest s) = emitted s := rfl
@[simp] theorem emitted_takeDigest (s : State) : emitted (takeDigest s) = emitted s := takeDigest_taken_append_rspQ s

end Sys2Proof.Machine
end

