-- ==== Sys2Proof/Tests/Slice0.lean ====
section
/-! SUPPORT. Tests on fixed values, each expected value from the spec's file named beside it, and for every statement with
hypotheses a witness that meets them. -/

namespace Sys2Proof.Tests

open Sys2Proof Sys2Proof.Machine

/-- The state an outcome goes on to. -/
def after (o : Host.Outcome State Fault Refusal) : Option State :=
  match o with
  | .next t => some t
  | .fault _ => none
  | .refused _ => none

/-- Right after hardware reset, but with these hasher registers. -/
def holding (h1 h2 length : Word) : State := { State.reset with h1 := h1, h2 := h2, length := length }

/-- Right after hardware reset, but with these words offered and these events to come. -/
def offering (ws : List CmdWord) (evs : List Move) : State := { State.reset with cmds := ws, sched := evs }

/-- An instance with one response slot, and that slot taken. -/
def full (ws : List CmdWord) (evs : List Move) : State :=
  { offering ws evs with cfg := { Config.default with rspDepth := .slots 1 }, rspQ := [5#128] }

/-- In the fault state after a word with header 0x90, with one digest queued. -/
def stuck (ws : List CmdWord) (evs : List Move) : State :=
  { offering ws evs with fault := true, faultInfo := 0x90#8, rspQ := [5#128] }

/-- `RESET 1`, non-canonical: 95_test_vectors.md section 4.1. -/
def wordReset : CmdWord := 0x00ffffffffffffffffffffffff00000001#136
/-- `BLOCK "The quick brown "`: 41_block_mixer.md R103. -/
def wordBlock : CmdWord := 0x40206e776f7262206b6369757120656854#136
/-- `TAIL "hell"` with 0xff in the lanes 4 to 15: 95_test_vectors.md section 4.3, T1. -/
def wordTail : CmdWord := 0x84ffffffffffffffffffffffff6c6c6568#136
/-- `TAIL` of no bytes. -/
def wordNop : CmdWord := 0x8000000000000000000000000000000000#136
/-- `HASH`. -/
def wordHash : CmdWord := 0xc000000000000000000000000000000000#136
/-- A word with the illegal header 0x90. -/
def wordBad : CmdWord := 0x900000000000000000000000000000006f#136

/-! ### Well-formedness -/

/-- Lane 1 is not zero although the count is 1: the check refuses it. -/
theorem test_wf_refuses_stale_lane : (Instr.tail 1#4 0xff01#128).wf = false := by decide

/-- The widest tail, with lane 15 zero, is well formed; with lane 15 set it is not. -/
theorem test_wf_lane_fifteen : (Instr.tail 15#4 0x00ffffffffffffffffffffffffffffff#128).wf = true ∧
    (Instr.tail 15#4 0x01ffffffffffffffffffffffffffffff#128).wf = false := by decide

/-! ### Decoding: words written out from 30_encoding.md R67 to R71, verdicts of 95_test_vectors.md section 4.6 -/

theorem test_decode_reset : decode wordReset = .command (.reset 1#32) := by decide

theorem test_decode_block :
    decode wordBlock = .command (.block 0x6369757120656854#64 0x206e776f7262206b#64) := by decide

theorem test_decode_tail : decode wordTail = .command (.tail 4#4 0xffffffffffffffffffffffff6c6c6568#128) := by decide

theorem test_decode_hash : decode wordHash = .command .hash := by decide

theorem test_decode_tail_bounds : decode 0x8000000000000000000000000000000000#136 = .command (.tail 0#4 0#128) ∧
    decode 0x8f00000000000000000000000000000000#136 = .command (.tail 15#4 0#128) := by decide

/-- 0x0f: `N` on RESET; 0x4f: `N` on BLOCK; 0x7f and 0x90 and 0xa5: `RSV`; 0xc1: `N` on HASH. -/
theorem test_decode_illegal : ∀ h ∈ [0x0f#8, 0x4f#8, 0x7f#8, 0x90#8, 0xa5#8, 0xc1#8],
    decode (makeWord h 0x6f#128) = .illegal h := by decide

/-- Each row of spec/opcode_table.json is one command's row, with no row read for another. -/
theorem test_table_rows : (decodeTableWord 136 (tableMatch (.reset 0#32)).toNat = some (.reset 0#32)) ∧
    (decodeTableWord 136 (tableMatch (.block 0#64 0#64)).toNat = some (.block 0#64 0#64)) ∧
    (decodeTableWord 136 (tableMatch (.tail 0#4 0#128)).toNat = some (.tail 0#4 0#128)) ∧
    (decodeTableWord 136 (tableMatch .hash).toNat = some .hash) ∧
    decodeTableWord 136 wordBad.toNat = none ∧ decodeTableWord 144 0 = none := by decide

/-! ### The commands -/

/-- 95_test_vectors.md section 4.1, row 0x80000000, column `sign`; the start state of that table. -/
theorem test_reset_sign_extends :
    (after (exec (.reset 0x80000000#32) (holding 0x1111111111111111#64 0x2222222222222222#64 0x33#64))).map hasherOf =
      some { h1 := 0xffffffff80000000#64, h2 := 0xffffffff80000000#64, length := 0#64 } := by decide

/-- The same row, column `zero`. -/
theorem test_reset_zero_extends : seedExt .zero 0x80000000#32 = 0x0000000080000000#64 := by decide

/-- 95_test_vectors.md section 4.2, B5: a general state. -/
theorem test_block_general :
    (after (executeWord 0x401f1e1d1c1b1a19181716151413121110#136
      (holding 0x0123456789abcdef#64 0xfedcba9876543210#64 0x20#64))).map hasherOf =
      some { h1 := 0x3e65a9aab039118c#64, h2 := 0x68e788066aaab494#64, length := 0x30#64 } := by decide +kernel

/-- 95_test_vectors.md section 4.2, B6: the counter wraps. -/
theorem test_block_length_wraps :
    (after (exec (.block 0#64 0#64) (holding 0#64 0#64 0xfffffffffffffff8#64))).map hasherOf =
      some { h1 := 0x0000000052dce729#64, h2 := 0x00000001d699de82#64, length := 8#64 } := by decide +kernel

/-- 95_test_vectors.md section 4.3, T9: the widest tail, a stale lane 15, a general state. -/
theorem test_tail_widest :
    (after (executeWord 0x8fffffffffffffffffffffffffffffffff#136
      (holding 0x0123456789abcdef#64 0xfedcba9876543210#64 0x30#64))).map hasherOf =
      some { h1 := 0x10ef3a176570a3a6#64, h2 := 0xe7e9e4d0df51dabd#64, length := 0x3f#64 } := by decide +kernel

/-- 95_test_vectors.md section 4.3, T6: byte 8 goes to `k2`, and is not sign-extended. -/
theorem test_tail_byte_eight :
    (after (executeWord 0x8900000000000000800000000000000000#136 State.reset)).map hasherOf =
      some { h1 := 0#64, h2 := 0xa29199ab7cfc8473#64, length := 9#64 } := by decide +kernel

/-- 95_test_vectors.md section 4.4, H8. -/
theorem test_hash_general :
    (after (exec .hash (holding 0x0123456789abcdef#64 0xfedcba9876543210#64 0x2b#64))).map (·.rspQ) =
      some [0x33318ce2120a91cc01ada7b8d892c477#128] := by decide +kernel

/-- 95_test_vectors.md section 4.4, H9: all 64 bits of `length` enter. -/
theorem test_hash_length_high_bits :
    (after (exec .hash (holding 0#64 0#64 0x0000000100000000#64))).map (·.rspQ) =
      some [0x62abd11ccf40b33a59d6a9e0807020b1#128] := by decide +kernel

/-! ### A step: fetching, the fault, back-pressure -/

theorem test_fetch_reset : (after (step (State.reset.withFetchWord 136 wordReset.toNat))).map hasherOf =
    some { h1 := 1#64, h2 := 1#64, length := 0#64 } := by decide

/-- 95_test_vectors.md section 4.2, B3. -/
theorem test_fetch_block : (after (step (State.reset.withFetchWord 136 wordBlock.toNat))).map hasherOf =
    some { h1 := 0x065f54070009580c#64, h2 := 0x1185bfe0bc383732#64, length := 0x10#64 } := by decide +kernel

/-- 95_test_vectors.md section 4.3, T1. -/
theorem test_fetch_tail : (after (step (State.reset.withFetchWord 136 wordTail.toNat))).map hasherOf =
    some { h1 := 0xcebd64d8db31fd75#64, h2 := 0#64, length := 4#64 } := by decide +kernel

/-- 95_test_vectors.md section 4.4, H1. -/
theorem test_fetch_hash : (after (step (State.reset.withFetchWord 136 wordHash.toNat))).map (·.rspQ) =
    some [0#128] := by decide +kernel

/-- 95_test_vectors.md section 4.6: an illegal header. -/
theorem test_illegal_header : (after (step (offering [wordBad, wordReset] []))).map (fun t => (t.fault, t.faultInfo, t.cmds)) =
    some (true, 0x90#8, [wordReset]) := by decide

/-- In the fault state a RESET is not accepted, the queued digest is taken, and hardware reset is accepted. -/
theorem test_fault_state : (after (step (stuck [wordReset] [.accept]))).map (fun t => (t.cmds, t.fault)) = some ([wordReset], true) ∧
    (after (step (stuck [wordReset] [.take]))).map (fun t => (t.taken, t.rspQ)) = some ([5#128], []) ∧
    (after (step (stuck [wordReset] [.hardReset]))).map (fun t => (t.fault, t.faultInfo, t.rspQ)) =
      some (false, 0x00#8, []) := by decide

/-- A full queue holds HASH and, unless the instance is built to hold everything, nothing else. -/
theorem test_full_queue : (after (step (full [wordHash] []))).map (·.cmds) = some [wordHash] ∧
    (after (step (full [wordReset] []))).map (·.cmds) = some [] ∧
    heldByQueue { full [wordReset] [] with cfg := { Config.default with rspDepth := .slots 1, holdAll := true } } wordReset =
      true := by decide

/-! ### The host's side: assembler, digests -/

/-- 30_encoding.md R77: `RESET -1` and `RESET 0xffffffff` are one word; a comment stands for no word. -/
theorem test_assembler_seed : assembleText ['R', 'E', 'S', 'E', 'T', ' ', '-', '1', ' ', ';', 'x'] = some [0xffffffff#136] ∧
    assembleText ['R', 'E', 'S', 'E', 'T', ' ', '0', 'x', 'f', 'f', 'f', 'f', 'f', 'f', 'f', 'f'] = some [0xffffffff#136] ∧
    assembleText [';', 'x'] = some [] := by decide

/-- 30_encoding.md R77, R78: a TAIL of two listed bytes, an INCLUDE of a string, and lines with the wrong operands. -/
theorem test_assembler_bytes : assembleText ['T', 'A', 'I', 'L', ' ', '6', 'c', ' ', '8', '0'] =
      some [0x820000000000000000000000000000806c#136] ∧
    assembleText ['I', 'N', 'C', 'L', 'U', 'D', 'E', ' ', '"', 'h', 'e', '"'] =
      some [0x8200000000000000000000000000006568#136] ∧
    assembleText ['B', 'L', 'O', 'C', 'K', ' ', '6', 'c'] = none ∧ assembleText ['H', 'A', 'S', 'H', ' ', '1'] = none := by
  decide

/-- 40_reset.md R94, 95_test_vectors.md section 4.5: seed 1 with no input and seed 0 with one zero byte collide. -/
theorem test_seed_collision : hash128 .sign 1#32 [] = 0x4610abe56eff5cb551622daa78f83583#128 ∧
    hash128 .sign 0#32 [0x00#8] = 0x4610abe56eff5cb551622daa78f83583#128 := by decide +kernel

/-! ### Witnesses: hypotheses that can be met -/

theorem witness_HardwareResetLeavesTableValues : (stuck [wordHash] [.hardReset, .take]).sched = .hardReset :: [.take] := rfl

/-- Two different states before the same hardware reset, and a step that leaves the fault state. -/
theorem witness_HardwareResetForgetsEverything :
    ((stuck [wordHash] [.hardReset]).cfg = (offering [wordHash] [.hardReset]).cfg ∧
      (stuck [wordHash] [.hardReset]).cmds = (offering [wordHash] [.hardReset]).cmds ∧
      (stuck [wordHash] [.hardReset]).taken = (offering [wordHash] [.hardReset]).taken ∧
      (stuck [wordHash] [.hardReset]).sched = (offering [wordHash] [.hardReset]).sched ∧
      stuck [wordHash] [.hardReset] ≠ offering [wordHash] [.hardReset] ∧
      (stuck [wordHash] [.hardReset]).sched.head? = some .hardReset) ∧
    (step (stuck [] [.hardReset]) = .next State.reset ∧ (stuck [] [.hardReset]).fault = true ∧
      State.reset.fault = false) := by
  exact ⟨by decide, rfl, rfl, rfl⟩

theorem witness_StepRunsTheDecodedCommand :
    (CoreTurn (offering [wordHash] [.accept, .take]) [.take] ∧ (offering [wordHash] [.accept, .take]).cmds = wordHash :: [] ∧
      acceptsWord (offering [wordHash] [.accept, .take]) wordHash = true ∧ decode wordHash = .command .hash) ∧
    (CoreTurn (offering [wordReset, wordHash] []) [] ∧ (offering [wordReset, wordHash] []).cmds = wordReset :: [wordHash] ∧
      acceptsWord (offering [wordReset, wordHash] []) wordReset = true ∧ decode wordReset = .command (.reset 1#32)) :=
  ⟨⟨.inr rfl, by decide, by decide, by decide⟩, ⟨.inl ⟨rfl, rfl⟩, by decide, by decide, by decide⟩⟩

/-- An accepted word, a held one, a take edge, no word at all, the fault state, hardware reset, and two edges of a low `CMD_READY`
before the core's. -/
theorem witness_CommandHandshake :
    (atEdge (offering [wordBad] [.accept]) = true ∧ portCmdValid (offering [wordBad] [.accept]) = 1#1 ∧
      portCmdReady (offering [wordBad] [.accept]) = 1#1 ∧ acceptedWord (offering [wordBad] [.accept]) = some wordBad) ∧
    (step (full [wordHash] [.accept]) = .next (full [wordHash] []) ∧
      ¬ (portCmdValid (full [wordHash] [.accept]) = 1#1 ∧ portCmdReady (full [wordHash] [.accept]) = 1#1) ∧
      portCmdValid (full [wordHash] [.accept]) = 1#1 ∧ (full [wordHash] [.accept]).sched.head? ≠ some .hardReset) ∧
    ¬ (portCmdValid (full [wordReset] [.take]) = 1#1 ∧ portCmdReady (full [wordReset] [.take]) = 1#1) ∧
    ¬ (portCmdValid (offering [] [.accept]) = 1#1 ∧ portCmdReady (offering [] [.accept]) = 1#1) ∧
    (stuck [] []).fault = true ∧ portRst (offering [wordReset] [.hardReset]) = 1#1 ∧
    ((offering [wordReset] [.wait, .wait, .observe]).fault = false ∧
      (offering [wordReset] [.wait, .wait, .observe]).cmds = wordReset :: [] ∧
      (offering [wordReset] [.wait, .wait, .observe]).sched = List.replicate 2 .wait ++ [.observe] ∧
      nextEdge [.observe] = .accept) :=
  ⟨by decide, ⟨rfl, by decide, by decide, by decide⟩, by decide, by decide, by decide, by decide, by decide⟩

/-- One word for each header of the statement, with TAIL's count at both ends, and an illegal one beside each legal range. -/
theorem witness_HeaderSelectsTheCommand : headerOf wordReset = 0x00#8 ∧ headerOf wordBlock = 0x40#8 ∧
    headerOf wordNop = 0x8#4 ++ 0#4 ∧ headerOf 0x8f00000000000000000000000000000000#136 = 0x8#4 ++ 15#4 ∧
    headerOf wordHash = 0xC0#8 ∧ ¬ ListedHeader 0x01#8 ∧ ¬ ListedHeader 0x41#8 ∧ ¬ ListedHeader 0x7f#8 ∧
    ¬ ListedHeader 0xc1#8 ∧ ¬ ListedHeader (headerOf wordBad) ∧ decode wordHash = .command .hash := by decide

theorem witness_DecodeEncodeAgree : wordTail.extractLsb' 132 4 = 0x8#4 ∧
    wordNop.extractLsb' 132 4 = 0x8#4 ∧
    (headerOf wordBad ≠ 0x00#8 ∧ headerOf wordBad ≠ 0x40#8 ∧ wordBad.extractLsb' 132 4 ≠ 0x8#4 ∧ headerOf wordBad ≠ 0xC0#8) ∧
    Instr.WellFormed (.tail 15#4 0x00ffffffffffffffffffffffffffffff#128) ∧ Instr.WellFormed (.reset 0xffffffff#32) := by
  decide

/-- Two different words that differ in ignored bits only, and an assembled line. -/
theorem witness_IgnoredBitsHaveNoEffect :
    (wordReset ≠ 0x1#136 ∧ headerOf wordReset = headerOf 0x1#136 ∧
      (headerOf wordReset = 0x00#8 → wordReset.extractLsb' 0 32 = (0x1#136).extractLsb' 0 32) ∧
      (headerOf wordReset = 0x40#8 → payloadPart wordReset = payloadPart 0x1#136) ∧
      (∀ n : BitVec 4, headerOf wordReset = 0x8#4 ++ n → ∀ j < 8 * n.toNat, wordReset.getLsbD j = (0x1#136).getLsbD j)) ∧
    assembleLine .hash = some [wordHash] := by
  exact ⟨⟨by decide, by decide, by decide, by decide, fun n h => absurd h (by revert n; decide)⟩, by decide⟩

theorem witness_ByteSerialImage : [wordReset, wordHash][1]? = some wordHash := rfl

theorem witness_EveryLegalSequenceRuns :
    ((offering [wordNop, wordHash] []).fault = false ∧ (offering [wordNop, wordHash] []).sched = [] ∧
      (offering [wordNop, wordHash] []).cfg.rspDepth = .unbounded ∧
      ∀ w ∈ (offering [wordNop, wordHash] []).cmds, ListedHeader (headerOf w)) ∧
    (∀ i ∈ [Instr.tail 3#4 0xffffffff#128, .block 1#64 2#64], (∃ k1 k2, i = .block k1 k2) ∨ ∃ n d, i = .tail n d) := by
  refine ⟨⟨rfl, rfl, rfl, List.forall_mem_cons.2 ⟨by decide, List.forall_mem_cons.2 ⟨by decide, by simp⟩⟩⟩, fun i hi => ?_⟩
  obtain rfl | rfl := by simpa using hi
  · exact .inr ⟨_, _, rfl⟩
  · exact .inl ⟨_, _, rfl⟩

theorem witness_CommandsExecuteInOrder :
    ((offering [wordNop, wordHash] []).fault = false ∧ (offering [wordNop, wordHash] []).sched = [] ∧
      (offering [wordNop, wordHash] []).cfg.rspDepth = .unbounded ∧
      (offering [wordNop, wordHash] []).cmds.map decode = [Instr.tail 0#4 0#128, .hash].map .command) ∧
    ((full [] [.take]).sched = .take :: [] ∧ (full [] [.take]).rspQ = 5#128 :: []) := by decide

/-- Runs in which a held HASH waits for the host, a word is issued on the way, and one word stays offered. -/
theorem witness_AcceptedWordsRunInOrder : Move.hardReset ∉ (full [wordHash] [.accept, .take, .issue wordReset]).sched.take 2 ∧
    (∃ t, Host.Core.run Sys2Proof.core 2 (full [wordHash] [.accept, .take, .issue wordReset]) = .next t ∧ t.fault = false) ∧
    acceptedWords 2 (full [wordHash] [.accept, .take, .issue wordReset]) = [] ∧
    acceptedWords 2 (offering [wordReset] [.issue wordNop]) = [wordReset] :=
  ⟨by decide, ⟨_, rfl, rfl⟩, by decide, by decide⟩

/-- Two words for an instance with a single response slot. -/
theorem witness_EveryLegalProgramRunsToItsEnd : ∃ s : State, s.cmds = [wordReset, wordHash] ∧ s.cfg.rspDepth = .slots 1 ∧
    s.fault = false ∧ s.rspQ = [] ∧ s.cfg.wf = true ∧ (∀ w ∈ s.cmds, ListedHeader (headerOf w)) ∧
    s.sched = (List.replicate s.cmds.length [Move.accept, Move.take]).flatten :=
  ⟨{ offering [wordReset, wordHash] [.accept, .take, .accept, .take] with
      cfg := { Config.default with rspDepth := .slots 1 } }, rfl, rfl, rfl, rfl, by decide,
    List.forall_mem_cons.2 ⟨by decide, List.forall_mem_cons.2 ⟨by decide, by simp⟩⟩, rfl⟩

/-- No program but the empty one has run to its end in no step; a word still offered or still to be issued has not been
accepted. -/
theorem test_ran_to_end : ¬ RanToEnd [wordReset] 0 State.reset State.reset ∧ RanToEnd [] 0 State.reset State.reset ∧
    acceptedWords 1 (offering [] [.issue wordReset]) = [] :=
  ⟨fun h => absurd h.2.2.1 (by decide), ⟨rfl, by decide, by decide, by decide, by decide⟩, by decide⟩

/-- `CMD_READY` is low before a `wait` edge and before a `take` edge, and shows the next edge across an observation. -/
theorem test_command_ready : portCmdReady (offering [wordReset] [.wait]) = 0#1 ∧
    portCmdReady (offering [wordReset] [.take]) = 0#1 ∧ portCmdReady (offering [wordReset] [.observe, .accept]) = 1#1 ∧
    portCmdReady (offering [wordReset] []) = 1#1 ∧ portRspReady (full [] [.take]) = 1#1 := by decide

/-- Seeds on both sides of bit 31. -/
theorem witness_SeedExtension : (0x80000000#32).getLsbD 31 = true ∧ (0x7fffffff#32).getLsbD 31 = false := by decide

theorem witness_ResetCommandLoadsTheSeed : headerOf wordReset = 0x00#8 ∧
    (0x01#8 ≤ headerOf 0x0100000000000000000000000000000000#136 ∧
      headerOf 0x0100000000000000000000000000000000#136 ≤ 0x0F#8) ∧
    (0x01#8 ≤ headerOf 0x0f00000000000000000000000000000000#136 ∧
      headerOf 0x0f00000000000000000000000000000000#136 ≤ 0x0F#8) ∧
    wordOfImage [0x00, 0x01, 0x00, 0x00, 0x00, 0x00, 0x00, 0x00, 0x00, 0x00, 0x00, 0x00, 0x00,
      0x00, 0x00, 0x00, 0x00] = some 0x1#136 := by decide

theorem witness_ResetEquivalence : (stuck [] []).cfg = (holding 1#64 2#64 3#64).cfg := rfl

theorem witness_ResetCommandLeavesFaultAndQueue :
    (exec (.reset 0#32) State.reset = .next State.reset) ∧
    ((stuck [wordReset] [.accept]).fault = true ∧ (stuck [wordReset] [.accept]).cmds = wordReset :: [] ∧
      headerOf wordReset = 0x00#8 ∧ CoreTurn (stuck [wordReset] [.accept]) []) ∧
    (stuck [wordReset] [.hardReset]).sched = .hardReset :: [] :=
  ⟨rfl, ⟨by decide, by decide, by decide, .inr rfl⟩, rfl⟩

theorem witness_BlockCommandMixesTheBlock : headerOf wordBlock = 0x40#8 ∧
    wordOfImage [0x40, 0x54, 0x68, 0x65, 0x20, 0x71, 0x75, 0x69, 0x63, 0x6b, 0x20, 0x62, 0x72,
      0x6f, 0x77, 0x6e, 0x20] = some wordBlock ∧ hasherOf (offering [] []) = hasherOf State.reset := by decide

theorem witness_BlockInputIsLittleEndian :
    ([0x54, 0x68, 0x65, 0x20, 0x71, 0x75, 0x69, 0x63, 0x6b, 0x20, 0x62, 0x72, 0x6f, 0x77, 0x6e, 0x20] : List Byte).length = 16 ∧
    wordOfImage (0x40#8 :: [0x54, 0x68, 0x65, 0x20, 0x71, 0x75, 0x69, 0x63, 0x6b, 0x20, 0x62, 0x72, 0x6f, 0x77, 0x6e, 0x20]) =
      some wordBlock := by decide

/-- The state of the wrap, and outcomes of BLOCK and TAIL from it. -/
theorem witness_LengthWraps : (∃ t, exec (.block 0#64 0#64) (holding 0#64 0#64 0xfffffffffffffff8#64) = .next t) ∧
    (∃ t, exec (.tail 15#4 0#128) (holding 0#64 0#64 0xfffffffffffffff8#64) = .next t) ∧
    (holding 0#64 0#64 0xfffffffffffffff8#64).length.toNat = 2 ^ 64 - 8 :=
  ⟨⟨_, exec_block _ _ _⟩, ⟨_, exec_tail _ _ _⟩, by decide⟩

/-- The counts where the clauses meet. -/
theorem witness_TailAssembly : (0 ≤ 15 ∧ 15 ≤ 15) ∧ (0 ≤ 8 ∧ 8 ≤ 8) ∧ (8 ≤ 8 ∧ 8 ≤ 15) := by decide

theorem witness_TailCommandXorsTheTail : headerOf wordNop = 0x8#4 ++ 0#4 ∧ headerOf wordTail = 0x8#4 ++ 4#4 ∧
    headerOf 0x8f00000000000000000000000000000000#136 = 0x8#4 ++ 15#4 ∧
    wordOfImage [0x84, 0x68, 0x65, 0x6c, 0x6c, 0x00, 0x00, 0x00, 0x00, 0x00, 0x00, 0x00, 0x00,
      0x00, 0x00, 0x00, 0x00] = some 0x840000000000000000000000006c6c6568#136 ∧
    hasherOf (offering [] []) = hasherOf State.reset := by decide

theorem witness_TailOfZeroBytesIsTheNoOp :
    (CoreTurn (offering [wordNop] [.accept]) [] ∧ (offering [wordNop] [.accept]).cmds = wordNop :: [] ∧
      headerOf wordNop = 0x80#8 ∧ acceptsWord (offering [wordNop] [.accept]) wordNop = true) ∧
    (CoreTurn (stuck [wordNop] []) [] ∧ (stuck [wordNop] []).cmds = wordNop :: [] ∧ (stuck [wordNop] []).fault = true) :=
  ⟨⟨.inr rfl, by decide, by decide, by decide⟩, ⟨.inl ⟨rfl, rfl⟩, by decide, by decide⟩⟩

/-- The largest count that leaves `h2`, and fifteen zero bytes below a stale lane. -/
theorem witness_TailPartialEffects : (8#4).toNat ≤ 8 ∧
    ∀ i < (15#4).toNat, lane 0xff000000000000000000000000000000#128 i = 0#8 := by decide

theorem witness_HashCommandEmitsTheDigest : headerOf wordHash = 0xC0#8 ∧ CoreTurn (full [wordHash] []) [] ∧
    (full [wordHash] []).cmds = wordHash :: [] ∧ rspFull (full [wordHash] []) = true :=
  ⟨by decide, .inl ⟨rfl, rfl⟩, by decide, by decide⟩

/-- A step of each kind: nothing handed over, a digest taken, a hardware reset; and a run without one. -/
theorem witness_DigestsAreDetached :
    (step (full [wordHash] [.wait]) = .next (full [wordHash] []) ∧
      (full [wordHash] [.wait]).sched.head? ≠ some .hardReset) ∧
    ((∃ t, step (full [] [.hardReset]) = .next t) ∧ (full [] [.hardReset]).sched.head? = some .hardReset) ∧
    ((∀ m ∈ (full [] [.take]).sched, m ≠ .hardReset) ∧
      ∃ t, Host.Core.run Sys2Proof.core 1 (full [] [.take]) = .next t) :=
  ⟨⟨rfl, by decide⟩, ⟨⟨_, (step_of_scheduled rfl).trans rfl⟩, by decide⟩, ⟨by decide, ⟨_, rfl⟩⟩⟩

/-- A HASH is among the steps the first clause speaks of. -/
theorem witness_DigestsAreDetached_hash : (∃ t, step (offering [wordHash] []) = .next t) ∧
    (offering [wordHash] []).sched.head? ≠ some .hardReset ∧ nextCommand (offering [wordHash] []) = some .hash := by
  refine ⟨⟨rspPush (digestOf (hasherOf (offering [] []))) (offering [] []), ?_⟩, by decide, by decide⟩
  rw [step_of_unscheduled rfl, coreStep_of_accepts rfl (by decide)]
  simp only [executeWord, test_decode_hash, exec_hash]
  rfl

theorem witness_ResponseHandshake : (atEdge (full [] [.take]) = true ∧ portRspValid (full [] [.take]) = 1#1 ∧
      portRspReady (full [] [.take]) = 1#1) ∧ (full [] [.take]).rspQ = 5#128 :: [] ∧ (full [] [.take]).sched = .take :: [] ∧
    (∃ t, step (full [] [.take]) = .next t) ∧ (full [] [.take]).sched.head? ≠ some .hardReset ∧
    executeWord wordBad (full [] []) = .next (raiseIllegalCommand 0x90#8 (full [] [])) ∧ ¬ ListedHeader (headerOf wordBad) :=
  ⟨by decide, by decide, by decide, ⟨_, (step_of_scheduled rfl).trans rfl⟩, by decide, rfl, by decide⟩

theorem witness_BackPressure :
    (CoreTurn (full [wordHash] []) [] ∧ (full [wordHash] []).cmds = wordHash :: [] ∧ headerOf wordHash = 0xC0#8 ∧
      rspFull (full [wordHash] []) = true ∧ (full [wordHash] []).sched = []) ∧
    ((full [wordHash] [.take, .accept]).fault = false ∧ (full [wordHash] [.take, .accept]).sched = .take :: .accept :: [] ∧
      (full [wordHash] [.take, .accept]).cmds = wordHash :: [] ∧ (full [wordHash] [.take, .accept]).cfg.rspDepth = .slots 1 ∧
      (full [wordHash] [.take, .accept]).rspQ = 5#128 :: [] ∧ (full [wordHash] [.take, .accept]).rspQ.length = 1) ∧
    State.reset.cfg.rspDepth = .unbounded :=
  ⟨⟨.inl ⟨rfl, rfl⟩, by decide, by decide, by decide, by decide⟩, by decide, by decide⟩

theorem witness_IncludeExpansion : (includeWords []) = [wordNop] ∧ wordNop ∈ includeWords [] ∧
    Instr.tail 0#4 0#128 ∈ includeInstrs [] := by decide

/-- A one-shot hash of one byte, offered to a fresh instance and to one with a single response slot. -/
theorem witness_OneShotHashRunsToItsEnd : ∀ d ∈ [RspDepth.unbounded, .slots 1], ∃ s : State, s.fault = false ∧ s.rspQ = [] ∧
    s.cfg.wf = true ∧ s.cfg.rspDepth = d ∧ s.cmds = oneShotWords 0#32 [0x00#8] ∧
    s.sched = List.replicate (oneShotWords 0#32 [0x00#8]).length .accept ++ [.take] := by
  intro d hd
  refine ⟨{ offering (oneShotWords 0#32 [0x00#8])
      (List.replicate (oneShotWords 0#32 [0x00#8]).length .accept ++ [.take]) with
      cfg := { Config.default with rspDepth := d } }, rfl, rfl, ?_, rfl, rfl, rfl⟩
  revert d
  decide

theorem witness_ChunkingAtBlockBoundaries : 16 ∣ ([] : List Byte).length ∧ 16 ∣ (List.replicate 16 0x61#8).length := by decide

theorem witness_LengthCountsTheInput : (holding 0#64 0#64 7#64).length = BitVec.ofNat 64 (2 ^ 64 + 7) ∧
    Host.Core.run Sys2Proof.core 1 (holding 0#64 0#64 7#64) = .next (holding 0#64 0#64 7#64) := ⟨by decide, rfl⟩

theorem witness_IllegalHeaderTakesTheFault :
    (CoreTurn (offering [wordBad] []) [] ∧ (offering [wordBad] []).cmds = wordBad :: [] ∧
      acceptsWord (offering [wordBad] []) wordBad = true ∧ ¬ ListedHeader (headerOf wordBad)) ∧
    ((∃ t, step (offering [wordBad] []) = .next t ∧ t.fault = true) ∧ (offering [wordBad] []).fault = false) ∧
    (stuck [] []).fault = true ∧ State.reset.fault = false :=
  ⟨⟨.inl ⟨rfl, rfl⟩, by decide, by decide, by decide⟩, ⟨⟨_, rfl, rfl⟩, rfl⟩, rfl, rfl⟩

/-- Each of the two alternatives of both disjunctions: a word offered, a digest taken, neither. -/
theorem witness_FaultStateAcceptsNoWord : ∀ m ∈ [Move.accept, .take, .issue wordReset, .wait, .observe],
    (stuck [wordReset] [m]).fault = true ∧ (stuck [wordReset] [m]).sched.head? ≠ some .hardReset := by decide

theorem witness_NoReturnFromTheFault : ((stuck [wordReset] [.accept]).fault = true ∧
      (∀ m ∈ (stuck [wordReset] [.accept]).sched, m ≠ .hardReset) ∧
      Host.Core.run Sys2Proof.core 2 (stuck [wordReset] [.accept]) = .next (stuck [wordReset] [])) ∧
    (stuck [wordReset] [.hardReset]).sched = .hardReset :: [] := ⟨⟨rfl, by decide, rfl⟩, rfl⟩

/-- Outcomes of all four commands and of an illegal header; two states that agree on what a command reads. -/
theorem witness_AccessMatrix : (∃ t, exec (.block 1#64 2#64) State.reset = .next t) ∧ Instr.block 1#64 2#64 ≠ .hash ∧
    (∃ t, exec .hash State.reset = .next t) ∧
    (∃ t v, exec (.reset 1#32) State.reset = .next t ∧ exec (.reset 1#32) (holding 1#64 2#64 3#64) = .next v ∧
      State.reset.cfg = (holding 1#64 2#64 3#64).cfg) ∧
    (∃ t v, exec .hash State.reset = .next t ∧ exec .hash (stuck [] []) = .next v ∧
      hasherOf State.reset = hasherOf (stuck [] []) ∧ State.reset.cfg = (stuck [] []).cfg) ∧
    ((∃ t, executeWord wordBad State.reset = .next t) ∧ ¬ ListedHeader (headerOf wordBad)) ∧
    (full [] [.hardReset]).sched = .hardReset :: [] :=
  ⟨⟨_, exec_block _ _ _⟩, by decide, ⟨_, exec_hash _⟩, ⟨_, _, exec_reset _ _, exec_reset _ _, rfl⟩,
    ⟨_, _, exec_hash _, exec_hash _, by decide, rfl⟩, ⟨⟨_, rfl⟩, by decide⟩, rfl⟩

/-- Words offered and words still to be issued, none of them HASH; the changed hasher differs. -/
theorem witness_HostSeesTheHasherOnlyThroughDigests :
    (∀ w ∈ (offering [wordBlock, wordTail] [.accept, .issue wordBad]).cmds, headerOf w ≠ 0xC0#8) ∧
    (∀ m ∈ (offering [wordBlock, wordTail] [.accept, .issue wordBad]).sched, ∀ w, m = .issue w → headerOf w ≠ 0xC0#8) ∧
    hasherOf (offering [wordBlock, wordTail] [.accept, .issue wordBad]) ≠ { h1 := 1#64, h2 := 2#64, length := 3#64 } := by
  refine ⟨List.forall_mem_cons.2 ⟨by decide, List.forall_mem_cons.2 ⟨by decide, by simp⟩⟩, fun m hm w hw => ?_, by decide⟩
  subst hw
  obtain rfl : w = wordBad := by simpa [offering] using hm
  decide

/-- Two states that differ, with a BLOCK and a TAIL offered and an illegal word to come. -/
theorem witness_StepKeepsTheHasherHidden :
    SameButHasher (offering [wordBlock, wordTail] [.accept, .issue wordBad])
      (setHasher { h1 := 1#64, h2 := 2#64, length := 3#64 } (offering [wordBlock, wordTail] [.accept, .issue wordBad])) ∧
    NoHashToCome (offering [wordBlock, wordTail] [.accept, .issue wordBad]) ∧
    setHasher { h1 := 1#64, h2 := 2#64, length := 3#64 } (offering [wordBlock, wordTail] [.accept, .issue wordBad]) ≠
      offering [wordBlock, wordTail] [.accept, .issue wordBad] :=
  ⟨⟨_, rfl⟩, ⟨witness_HostSeesTheHasherOnlyThroughDigests.1,
    fun w hw => witness_HostSeesTheHasherOnlyThroughDigests.2.1 _ hw w rfl⟩, by decide⟩

/-- States that meet the invariant with a queued digest, with a full queue, and in the fault state. -/
theorem witness_StepKeepsTheInvariant : State.Inv (full [wordHash] [.wait]) ∧ State.Inv (stuck [] []) ∧
    step (full [wordHash] [.wait]) = .next (full [wordHash] []) := ⟨by decide, by decide, rfl⟩

theorem witness_ParametersNeverChange : step (full [wordHash] [.wait]) = .next (full [wordHash] []) := rfl

theorem witness_HostMoves : (offering [] [.issue wordHash]).sched = .issue wordHash :: [] ∧
    (offering [] [.observe]).sched = .observe :: [] ∧ (offering [] [.hardReset]).sched = .hardReset :: [] ∧
    (State.reset.sched = [] ∧ State.reset.cmds = []) := by decide

theorem witness_DigestHexString : (toBigEndianBytes 0x629942693e10f867#64 0x92db0b82baeb5347#64)[0]? = some 0x62#8 ∧
    (toBigEndianBytes 0x629942693e10f867#64 0x92db0b82baeb5347#64)[15]? = some 0x47#8 := by decide

/-- Both ends of the seed range and the first values past them; the longest tail and the first that is too long. -/
theorem witness_AssemblerLines : ((-2 ^ 31 : Int) ≤ -2 ^ 31 ∧ (-2 ^ 31 : Int) ≤ 2 ^ 32 - 1) ∧
    ((-2 ^ 31 : Int) ≤ 2 ^ 32 - 1 ∧ (2 ^ 32 - 1 : Int) ≤ 2 ^ 32 - 1) ∧ ((-2 ^ 31 - 1 : Int) < -2 ^ 31) ∧
    ((2 ^ 32 - 1 : Int) < 2 ^ 32) ∧ (List.replicate 15 0x61#8).length ≤ 15 ∧ 15 < (List.replicate 16 0x61#8).length := by
  decide

end Sys2Proof.Tests
end

section
/-! What an executed command, a step and a run do to the pieces of state of 10_state.md: the hasher triple with its byte
counter, the emitted digests, the fault record. -/

namespace Sys2Proof.Machine

/-! ### A command's effect, as functions of what it reads (10_state.md R32) -/

/-- The hasher triple a command leaves, from `SEED_EXT` and the triple before it. -/
def hasherAfter (ext : SeedExt) : Instr → Hasher → Hasher
  | .reset seed, _ => seedHasher ext seed
  | .block k1 k2, h => blockHasher k1 k2 h
  | .tail n data, h => tailHasher n data h
  | .hash, h => h

/-- The digests a command appends to the response queue, from the triple before it. -/
def digestsOf : Instr → Hasher → List RspWord
  | .hash, h => [digestOf h]
  | _, _ => []

@[simp] theorem digestsOf_hash (h : Hasher) : digestsOf .hash h = [digestOf h] := rfl

theorem digestsOf_of_ne_hash {i : Instr} (hi : i ≠ .hash) (h : Hasher) : digestsOf i h = [] := by
  cases i with
  | reset seed => rfl
  | block k1 k2 => rfl
  | tail n data => rfl
  | hash => exact absurd rfl hi

theorem hasherOf_of_exec {i : Instr} {s t : State} (h : exec i s = .next t) :
    hasherOf t = hasherAfter s.cfg.seedExt i (hasherOf s) := by
  cases i with
  | reset seed => rw [exec_reset_next h, hasherOf_setHasher, hasherAfter]
  | block k1 k2 => rw [exec_block_next h, hasherOf_setHasher, hasherAfter]
  | tail n data => rw [exec_tail_next h, hasherOf_setHasher, hasherAfter]
  | hash => rw [exec_hash_next h, hasherOf_rspPush, hasherAfter]

theorem rspQ_of_exec {i : Instr} {s t : State} (h : exec i s = .next t) :
    t.rspQ = s.rspQ ++ digestsOf i (hasherOf s) := by
  obtain ⟨hi, g, he⟩ | ⟨rfl, he⟩ := exec_cases i s
  · cases he.symm.trans h
    rw [digestsOf_of_ne_hash hi, List.append_nil, setHasher_rspQ]
  · cases he.symm.trans h
    rw [rspPush_rspQ, digestsOf_hash]

theorem emitted_of_exec {i : Instr} {s t : State} (h : exec i s = .next t) :
    emitted t = emitted s ++ digestsOf i (hasherOf s) := by
  obtain ⟨-, -, -, -, htaken, -⟩ := exec_frame h
  simp [emitted, htaken, rspQ_of_exec h]

/-! ### An illegal header (30_encoding.md R74) -/

/-- TAIL's sixteen headers are listed. -/
theorem listedHeader_of_tail : ∀ hdr : BitVec 8, hdr.extractLsb' 4 4 = 0x8#4 → ListedHeader hdr := by decide

theorem executeWord_of_illegal {w : CmdWord} {s : State} (h : ¬ ListedHeader (headerOf w)) :
    executeWord w s = .next (raiseIllegalCommand (headerOf w) s) := by
  have hd : decode w = .illegal (headerOf w) := by
    obtain ⟨e, -⟩ | ⟨e, -⟩ | ⟨e, -⟩ | ⟨e, -⟩ | ⟨-, hd⟩ := decode_cases w
    · exact absurd (.inl e) h
    · exact absurd (.inr (.inl e)) h
    · exact absurd (listedHeader_of_tail _ e) h
    · exact absurd (.inr (.inr (.inr e))) h
    · exact hd
  simp [executeWord, hd]

/-! ### The byte counter (10_state.md R22, R23) -/

/-- The counter after a command that counted `base` bytes before it. -/
def countAfter (base : Nat) : Instr → Nat
  | .reset _ => 0
  | i => base + bytesOf i

/-- Widening a TAIL's count and adding it is adding the number it stands for. -/
theorem zext64_eq_ofNat (n : BitVec 4) : zext64 n = BitVec.ofNat 64 n.toNat :=
  (BitVec.ofNat_toNat 64 n).symm

theorem length_hasherAfter (ext : SeedExt) (i : Instr) {h : Hasher} {base : Nat}
    (hb : h.length = BitVec.ofNat 64 base) :
    (hasherAfter ext i h).length = BitVec.ofNat 64 (countAfter base i) := by
  cases i with
  | reset seed => rfl
  | block k1 k2 => simp [hasherAfter, blockHasher, countAfter, bytesOf, hb, BitVec.ofNat_add]
  | tail n data => simp [hasherAfter, tailHasher, countAfter, bytesOf, hb, zext64_eq_ofNat, BitVec.ofNat_add]
  | hash => exact hb

/-- A command keeps the counter right. -/
theorem length_of_exec {i : Instr} {s t : State} {base : Nat} (h : exec i s = .next t)
    (hb : s.length = BitVec.ofNat 64 base) : t.length = BitVec.ofNat 64 (countAfter base i) := by
  rw [← hasherOf_length t, hasherOf_of_exec h]
  exact length_hasherAfter _ i hb

/-- The counter after a command as a number: the additions wrap at `2 ^ 64`. -/
theorem length_toNat_of_exec {i : Instr} {s t : State} (h : exec i s = .next t) :
    t.length.toNat = countAfter s.length.toNat i % 2 ^ 64 := by
  have hself : s.length = BitVec.ofNat 64 s.length.toNat := by simp
  rw [length_of_exec h hself, BitVec.toNat_ofNat]

theorem length_toNat_of_block {k1 k2 : Word} {s t : State} (h : exec (.block k1 k2) s = .next t) :
    t.length.toNat = (s.length.toNat + 16) % 2 ^ 64 := length_toNat_of_exec h

theorem countStep_of_hardReset {base : Nat} {s : State} (h : s.sched.head? = some .hardReset) :
    countStep base s = 0 := by
  simp [countStep, h]

theorem countStep_of_no_command {base : Nat} {s : State} (hm : s.sched.head? ≠ some .hardReset)
    (hn : nextCommand s = none) : countStep base s = base := by
  simp [countStep, hm, hn]

theorem countStep_of_command {base : Nat} {s : State} {i : Instr} (hm : s.sched.head? ≠ some .hardReset)
    (hn : nextCommand s = some i) : countStep base s = countAfter base i := by
  cases i <;> simp [countStep, hm, hn, countAfter]

/-! ### Steps and runs -/

/-- The core's turn is no hardware reset. -/
theorem head?_ne_hardReset_of_coreTurn {s : State} {rest : List Move} (h : CoreTurn s rest) :
    s.sched.head? ≠ some .hardReset := by
  obtain ⟨h, -⟩ | h := h <;> simp [h]

theorem step_of_hardReset {s : State} {rest : List Move} (h : s.sched = .hardReset :: rest) :
    step s = .next (hardwareReset (withSched rest s)) := step_of_scheduled h

/-- The invariant of R22: a step takes a right counter to a right counter. -/
theorem length_of_step {s t : State} {base : Nat} (h : step s = .next t) (hb : s.length = BitVec.ofNat 64 base) :
    t.length = BitVec.ofNat 64 (countStep base s) := by
  cases step_cases h with
  | idle hm hw e => rw [countStep_of_no_command hm (nextCommand_of_none hw), e]; exact hb
  | command i w ws rest ht _ _ hd hw e =>
    rw [countStep_of_command (head?_ne_hardReset_of_coreTurn ht) (nextCommand_of_command hw hd)]
    exact length_of_exec e hb
  | illegal w ws rest ht _ _ _ hd hw e =>
    rw [countStep_of_no_command (head?_ne_hardReset_of_coreTurn ht) (nextCommand_of_illegal hw hd), e]
    exact hb
  | issue w rest hs hw e =>
    rw [countStep_of_no_command (by simp [hs]) (nextCommand_of_none hw), e]
    exact hb
  | take rest hs hw e =>
    rw [countStep_of_no_command (by simp [hs]) (nextCommand_of_none hw), e, takeDigest_length]
    exact hb
  | hardReset rest hs hw e => rw [countStep_of_hardReset (by simp [hs]), e]; rfl

/-- A step that is no hardware reset appends the digests of the command it executes, if it executes one. -/
theorem emitted_of_step {s t : State} (h : step s = .next t) (hm : s.sched.head? ≠ some .hardReset) :
    emitted t = emitted s ++ (nextCommand s).elim [] (digestsOf · (hasherOf s)) := by
  cases step_cases h with
  | idle _ hw e => simp [nextCommand_of_none hw, e]
  | command i w ws rest ht _ _ hd hw e => simp [nextCommand_of_command hw hd, emitted_of_exec e]
  | illegal w ws rest ht _ _ _ hd hw e => simp [nextCommand_of_illegal hw hd, e]
  | issue w rest hs hw e => simp [nextCommand_of_none hw, e]
  | take rest hs hw e => simp [nextCommand_of_none hw, e]
  | hardReset rest hs hw e => simp [hs] at hm

/-- A run that goes on for one more step went on in its first step. -/
theorem run_succ_next {k : Nat} {s t : State} (h : Host.Core.run Sys2Proof.core (k + 1) s = .next t) :
    ∃ u, step s = .next u ∧ Host.Core.run Sys2Proof.core k u = .next t := by
  cases hs : step s with
  | next u => exact ⟨u, rfl, run_succ_of_step hs ▸ h⟩
  | fault r =>
    have hs : Sys2Proof.core.step s = .fault r := hs
    simp [Host.Core.run, hs] at h
  | refused r =>
    have hs : Sys2Proof.core.step s = .refused r := hs
    simp [Host.Core.run, hs] at h

theorem countRun_succ_of_step {k base : Nat} {s t : State} (h : step s = .next t) :
    countRun (k + 1) base s = countRun k (countStep base s) t := by
  simp [countRun, h]

theorem length_of_run {k base : Nat} {s t : State} (hb : s.length = BitVec.ofNat 64 base)
    (h : Host.Core.run Sys2Proof.core k s = .next t) : t.length = BitVec.ofNat 64 (countRun k base s) := by
  induction k generalizing base s with
  | zero => cases h; exact hb
  | succ k ih =>
    obtain ⟨u, hu, h⟩ := run_succ_next h
    rw [countRun_succ_of_step hu]
    exact ih (length_of_step hu hb) h

/-- Along a run without hardware reset the emitted digests only grow at the end. -/
theorem emitted_grows_along_run {k : Nat} {s t : State} (hm : ∀ m ∈ s.sched, m ≠ .hardReset)
    (h : Host.Core.run Sys2Proof.core k s = .next t) : emitted s <+: emitted t := by
  induction k generalizing s with
  | zero => cases h; exact ⟨[], List.append_nil _⟩
  | succ k ih =>
    obtain ⟨u, hu, h⟩ := run_succ_next h
    have hhead : s.sched.head? ≠ some .hardReset := fun e => hm _ (List.mem_of_head? e) rfl
    calc emitted s <+: emitted u := ⟨_, (emitted_of_step hu hhead).symm⟩
      _ <+: emitted t := ih (fun m hmem => hm m (mem_sched_of_step hu hmem)) h

/-! ### `include` and the byte counter (10_state.md R22, 44_include.md R161) -/

theorem length_foldl_blk {ι : Type} (chunk : ι → List Byte) (js : List ι) (h : Hasher) :
    (js.foldl (fun g j => blk g (chunk j)) h).length = h.length + BitVec.ofNat 64 (16 * js.length) := by
  induction js generalizing h with
  | nil => simp
  | cons j js ih =>
    have hblk : (blk h (chunk j)).length = h.length + 16#64 := rfl
    rw [List.foldl_cons, ih, hblk, List.length_cons, BitVec.add_assoc, ← BitVec.ofNat_add, Nat.mul_succ, Nat.add_comm]

theorem length_tl (h : Hasher) {t : List Byte} (ht : t.length ≤ 15) :
    (tl h t).length = h.length + BitVec.ofNat 64 t.length := by
  have hcount : (BitVec.ofNat 4 t.length).toNat = t.length := by
    rw [BitVec.toNat_ofNat]; exact Nat.mod_eq_of_lt (by omega)
  simp [tl, tailHasher, zext64_eq_ofNat, hcount]

theorem length_memRead_tail (b : List Byte) :
    (memRead b (16 * (b.length / 16)) (b.length % 16)).length = b.length % 16 := by
  simp only [memRead, List.length_take, List.length_drop]
  omega

theorem length_includeHasher (h : Hasher) (b : List Byte) :
    (includeHasher h b).length = h.length + BitVec.ofNat 64 b.length := by
  have htail : (memRead b (16 * (b.length / 16)) (b.length % 16)).length ≤ 15 := by
    rw [length_memRead_tail]; omega
  rw [includeHasher, length_tl _ htail, length_foldl_blk, length_memRead_tail, List.length_range, BitVec.add_assoc,
    ← BitVec.ofNat_add, Nat.div_add_mod]

/-! ### The seed of hardware reset (10_state.md R31) -/

/-- Seed 0 is 0 under either extension, so RESET with it leaves what hardware reset leaves. -/
theorem seedHasher_zero (ext : SeedExt) : seedHasher ext 0#32 = hasherOf State.reset := by
  cases ext with
  | sign => decide
  | zero => decide

/-! ### The statements -/

/-- Settles O39: a right counter is kept by every step (`length_of_step`), so by every run; `include` adds 16 for each of its
blocks and the rest with its tail. -/
theorem lengthCountsTheInput : Obligations.LengthCountsTheInput :=
  ⟨fun _ _ _ _ hb h => length_of_run hb h, length_includeHasher⟩

/-- Settles O30: a step appends the digests of its command (`emitted_of_step`), and HASH alone has one. -/
theorem digestsAreDetached : Obligations.DigestsAreDetached := by
  refine ⟨fun s t h hm => ?_, fun s t h hm => ?_, fun _ _ _ hm h => emitted_grows_along_run hm h⟩
  · rw [emitted_of_step h hm]
    by_cases hn : nextCommand s = some .hash
    · exact .inl ⟨hn, by simp [hn]⟩
    · refine .inr ⟨hn, ?_⟩
      cases hc : nextCommand s with
      | none => simp
      | some i =>
        have hi : i ≠ .hash := fun e => hn (e ▸ hc)
        simp [digestsOf_of_ne_hash hi]
  · obtain ⟨rest, hs⟩ := List.head?_eq_some_iff.1 hm
    cases (step_of_hardReset hs).symm.trans h
    simp

/-- Settles O44: what a command writes is `hasherAfter` and `digestsOf` of what it reads; the illegal header and hardware reset
each write by one operation on state. -/
theorem accessMatrix : Obligations.AccessMatrix := by
  refine ⟨fun s t i h hi => ?_, fun s t h => ?_, fun s u t v seed hcfg h g => ?_, fun s u t v i hcfg hh h g => ?_,
    fun s t w hw h => ?_, fun s rest hs => ⟨_, step_of_hardReset hs, by simp⟩⟩
  · obtain ⟨hfault, hinfo, -⟩ := exec_frame h
    exact ⟨by simp [rspQ_of_exec h, digestsOf_of_ne_hash hi], hfault, hinfo⟩
  · simp [exec_hash_next h]
  · rw [hasherOf_of_exec h, hasherOf_of_exec g, hcfg, hasherAfter, hasherAfter]
  · refine ⟨by rw [hasherOf_of_exec h, hasherOf_of_exec g, hcfg, hh], digestsOf i (hasherOf s), rspQ_of_exec h, ?_⟩
    rw [hh]
    exact rspQ_of_exec g
  · cases (executeWord_of_illegal (s := s) hw).symm.trans h
    simp

/-- Settles O1: hardware reset writes the table's values whatever the state, and seed 0 extends to 0. -/
theorem hardwareResetLeavesTableValues : Obligations.HardwareResetLeavesTableValues := by
  refine ⟨⟨rfl, rfl, rfl, rfl, rfl, rfl⟩, fun s rest hs => ⟨_, step_of_hardReset hs, by simp⟩, fun s => ?_⟩
  exact ⟨_, exec_reset 0#32 s, by rw [hasherOf_setHasher, seedHasher_zero]⟩

/-- Settles O21: BLOCK and TAIL are two cases of the counter after a command, read as a number modulo `2 ^ 64`. -/
theorem lengthWraps : Obligations.LengthWraps := by
  refine ⟨fun _ _ _ _ h => length_toNat_of_block h, fun _ _ _ _ h => length_toNat_of_exec h, fun s t k1 k2 hs h => ?_⟩
  apply BitVec.eq_of_toNat_eq
  rw [length_toNat_of_block h, hs]
  rfl

end Sys2Proof.Machine
end

section
/-! The little-endian value of a byte list (20_memory.md R42): its base-256 digits, cut where the halves of a payload are cut. -/

namespace Sys2Proof.Machine

/-- `leNat` is the library's `Nat.ofDigits` at base 256, whose laws of cutting the lemmas below use. -/
theorem leNat_eq_ofDigits (bs : List Byte) : leNat bs = Nat.ofDigits 256 (bs.map BitVec.toNat) := by
  induction bs with
  | nil => rfl
  | cons b bs ih => rw [leNat, ih, List.map_cons, Nat.ofDigits_cons]

theorem toNat_lt_of_mem_bytes (bs : List Byte) : ∀ d ∈ bs.map BitVec.toNat, d < 256 := by
  intro d hd
  obtain ⟨b, -, rfl⟩ := List.mem_map.1 hd
  exact b.isLt

theorem leNat_mod (n : Nat) (bs : List Byte) : leNat bs % 256 ^ n = leNat (bs.take n) := by
  rw [leNat_eq_ofDigits, leNat_eq_ofDigits, List.map_take]
  exact Nat.ofDigits_mod_pow_eq_ofDigits_take n (by decide) _ (toNat_lt_of_mem_bytes bs)

theorem leNat_div (n : Nat) (bs : List Byte) : leNat bs / 256 ^ n = leNat (bs.drop n) := by
  rw [leNat_eq_ofDigits, leNat_eq_ofDigits, List.map_drop]
  exact Nat.ofDigits_div_pow_eq_ofDigits_drop n (by decide) _ (toNat_lt_of_mem_bytes bs)

/-- The first `n` bytes as a sum: byte `i` at bit position `8 * i`. -/
theorem leNat_take_eq_sum {n : Nat} {bs : List Byte} (h : n ≤ bs.length) :
    leNat (bs.take n) = ((List.range n).map (fun i => (bs.getD i 0#8).toNat * 2 ^ (8 * i))).sum := by
  rw [leNat_eq_ofDigits, Nat.ofDigits_eq_sum_mapIdx]
  congr 1
  apply List.ext_getElem
  · simp [h]
  · intro i h1 h2
    have hi : i < n := by simpa using h2
    have hbs : i < bs.length := by omega
    simp [hbs, pow_mul]

theorem lowHalf_payloadOf_toNat (bs : List Byte) : (lowHalf (payloadOf bs)).toNat = leNat (bs.take 8) := by
  rw [← leNat_mod, lowHalf, BitVec.extractLsb'_toNat, payloadOf_toNat]
  omega

theorem highHalf_payloadOf_toNat (bs : List Byte) :
    (highHalf (payloadOf bs)).toNat = leNat ((bs.drop 8).take 8) := by
  rw [← leNat_mod, ← leNat_div, highHalf, BitVec.extractLsb'_toNat, payloadOf_toNat]
  omega

/-! ### The word of an image and the halves of its payload (30_encoding.md R61, R63) -/

/-- An image that stands for a word has 16 lanes after its header. -/
theorem wordOfImage_cons_eq_some {hdr : Byte} {lanes : List Byte} {w : CmdWord} :
    wordOfImage (hdr :: lanes) = some w ↔ lanes.length = 16 ∧ makeWord hdr (payloadOf lanes) = w := by
  by_cases h : lanes.length = 16
  · simp [wordOfImage, h]
  · simp [wordOfImage, h]

theorem lowHalf_payloadPart (w : CmdWord) : lowHalf (payloadPart w) = w.extractLsb' 0 64 := by
  rw [lowHalf, payloadPart, BitVec.extractLsb'_extractLsb'_of_le (by decide)]

theorem highHalf_payloadPart (w : CmdWord) : highHalf (payloadPart w) = w.extractLsb' 64 64 := by
  rw [highHalf, payloadPart, BitVec.extractLsb'_extractLsb'_of_le (by decide)]

/-! ### The statement -/

/-- Settles O19: the key words are the halves of the payload, and those are the two cuts of the bytes' little-endian value. -/
theorem blockInputIsLittleEndian : Obligations.BlockInputIsLittleEndian := by
  intro b w hlen himage
  obtain ⟨-, rfl⟩ := wordOfImage_cons_eq_some.1 himage
  refine ⟨_, _, decode_of_block (headerOf_makeWord _ _), ?_, ?_, lowHalf_payloadPart _, highHalf_payloadPart _⟩
  · rw [payloadPart_makeWord, lowHalf_payloadOf_toNat, leNat_take_eq_sum (by omega)]
  · have hdrop : 8 ≤ (b.drop 8).length := by simp [hlen]
    rw [payloadPart_makeWord, highHalf_payloadOf_toNat, leNat_take_eq_sum hdrop]
    simp only [List.getD_eq_getElem?_getD, List.getElem?_drop]

end Sys2Proof.Machine
end

section
/-! The decoder and the encoder against each other, the header against the rows of the opcode table, and the bits a command
ignores (30_encoding.md R70, R73 to R75). -/

namespace Sys2Proof

open Machine

/-! ### The operands as slices of the word (30_encoding.md R61, R62, R67 to R69) -/

theorem extractLsb'_headerOf {start len : Nat} (h : start + len ≤ 8) (w : CmdWord) :
    (headerOf w).extractLsb' start len = w.extractLsb' (128 + start) len := by
  apply BitVec.eq_of_getLsbD_eq
  intro i hi
  have h8 : start + i < 8 := by omega
  simp [headerOf, hi, h8, Nat.add_assoc]

theorem extractLsb'_payloadPart {start len : Nat} (h : start + len ≤ 128) (w : CmdWord) :
    (payloadPart w).extractLsb' start len = w.extractLsb' start len :=
  BitVec.extractLsb'_extractLsb'_of_le h

theorem decode_of_reset_slices {w : CmdWord} (h : headerOf w = 0x00#8) :
    decode w = .command (.reset (w.extractLsb' 0 32)) := by
  rw [decode_of_reset h, seedField, extractLsb'_payloadPart (by decide)]

theorem decode_of_block_slices {w : CmdWord} (h : headerOf w = 0x40#8) :
    decode w = .command (.block (w.extractLsb' 0 64) (w.extractLsb' 64 64)) := by
  rw [decode_of_block h, lowHalf_payloadPart, highHalf_payloadPart]

/-- A header with 8 in its upper half is TAIL's, with the count in its lower half. -/
theorem eq_append_nField_of_tail :
    ∀ hdr : BitVec 8, hdr.extractLsb' 4 4 = 0x8#4 → hdr = 0x8#4 ++ nField hdr := by decide

theorem decode_of_tail_slices {w : CmdWord} (h : w.extractLsb' 132 4 = 0x8#4) :
    decode w = .command (.tail (w.extractLsb' 128 4) (w.extractLsb' 0 128)) := by
  rw [← extractLsb'_headerOf (start := 4) (by decide)] at h
  rw [decode_of_tail (eq_append_nField_of_tail _ h), nField, extractLsb'_headerOf (by decide)]
  rfl

/-! ### The decoder against the listed headers (30_encoding.md R73, R74) -/

theorem listedHeader_iff_tests : ∀ hdr : BitVec 8, ListedHeader hdr ↔
    hdr = 0x00#8 ∨ hdr = 0x40#8 ∨ hdr.extractLsb' 4 4 = 0x8#4 ∨ hdr = 0xC0#8 := by decide

/-- A word is a command with a listed header, or illegal with another one. -/
theorem decode_command_or_illegal (w : CmdWord) :
    (ListedHeader (headerOf w) ∧ ∃ i, decode w = .command i) ∨
      (¬ ListedHeader (headerOf w) ∧ decode w = .illegal (headerOf w)) := by
  obtain ⟨hh, hd⟩ | ⟨hh, hd⟩ | ⟨hh, hd⟩ | ⟨hh, hd⟩ | ⟨hl, hd⟩ := decode_cases w
  · exact .inl ⟨.inl hh, _, hd⟩
  · exact .inl ⟨.inr (.inl hh), _, hd⟩
  · exact .inl ⟨listedHeader_of_tail _ hh, _, hd⟩
  · exact .inl ⟨.inr (.inr (.inr hh)), _, hd⟩
  · exact .inr ⟨by simp [listedHeader_iff, hl], hd⟩

theorem decode_of_unlisted {w : CmdWord} (h : ¬ ListedHeader (headerOf w)) : decode w = .illegal (headerOf w) := by
  obtain ⟨hl, -⟩ | ⟨-, hd⟩ := decode_command_or_illegal w
  · exact absurd hl h
  · exact hd

theorem exists_decode_command_iff {w : CmdWord} : (∃ i, decode w = .command i) ↔ ListedHeader (headerOf w) := by
  obtain ⟨hl, hi⟩ | ⟨hl, hd⟩ := decode_command_or_illegal w
  · exact iff_of_true hi hl
  · exact iff_of_false (by simp [hd]) hl

theorem exists_decode_illegal_iff {w : CmdWord} : (∃ hdr, decode w = .illegal hdr) ↔ ¬ ListedHeader (headerOf w) := by
  obtain ⟨hl, i, hd⟩ | ⟨hl, hd⟩ := decode_command_or_illegal w
  · exact iff_of_false (by simp [hd]) (not_not_intro hl)
  · exact iff_of_true ⟨_, hd⟩ hl

theorem header_of_decode {w : CmdWord} {i : Instr} (h : decode w = .command i) : i.header = headerOf w := by
  obtain ⟨hh, hd⟩ | ⟨hh, hd⟩ | ⟨hh, hd⟩ | ⟨hh, hd⟩ | ⟨-, hd⟩ := decode_cases w <;> cases hd.symm.trans h
  · exact hh.symm
  · exact hh.symm
  · exact (eq_append_nField_of_tail _ hh).symm
  · exact hh.symm

/-! ### The encoder against the decoder (30_encoding.md R75) -/

/-- The command with its ignored operand bits, TAIL's lanes from the count up, cleared (30_encoding.md R69). -/
def Instr.clearIgnored : Instr → Instr
  | .tail n data => .tail n (maskLanes n.toNat data)
  | i => i

theorem clearIgnored_of_wellFormed {i : Instr} (h : i.WellFormed) : i.clearIgnored = i := by
  cases i with
  | tail n data => rw [Instr.clearIgnored, of_decide_eq_true h]
  | _ => rfl

theorem encode_clearIgnored (i : Instr) : encode i.clearIgnored = encode i := by
  cases i with
  | tail n data => simp only [Instr.clearIgnored, encode, Instr.header, Instr.payload, maskLanes_maskLanes]
  | _ => rfl

theorem seedField_setWidth (seed : BitVec 32) : seedField (seed.setWidth 128) = seed := by
  rw [seedField, BitVec.extractLsb'_setWidth_of_le (by decide), BitVec.extractLsb'_eq_self]

/-- What `encode` loses is what it clears, and the decoder reads the rest back. -/
theorem decode_encode (i : Instr) : decode (encode i) = .command i.clearIgnored := by
  cases i with
  | reset seed => rw [decode_of_reset (headerOf_encode _), payloadPart_encode, Instr.payload, seedField_setWidth]; rfl
  | block k1 k2 =>
    rw [decode_of_block (headerOf_encode _), payloadPart_encode, Instr.payload, lowHalf_cat64, highHalf_cat64]; rfl
  | tail n data => rw [decode_of_tail (headerOf_encode _), payloadPart_encode]; rfl
  | hash => rw [decode_of_hash (headerOf_encode _)]; rfl

theorem encode_eq_iff {i : Instr} {w : CmdWord} : encode i = w ↔ i.header = headerOf w ∧ i.payload = payloadPart w := by
  constructor
  · rintro rfl
    exact ⟨(headerOf_encode i).symm, (payloadPart_encode i).symm⟩
  · rintro ⟨hh, hp⟩
    rw [encode, hh, hp, makeWord_parts]

/-- A payload is its seed and nothing else when its bits from 32 up are 0. -/
theorem setWidth_seedField_eq_iff (d : Payload) : (seedField d).setWidth 128 = d ↔ d.extractLsb' 32 96 = 0#96 := by
  rw [← BitVec.toNat_inj, ← BitVec.toNat_inj]
  simp only [seedField, BitVec.toNat_setWidth, BitVec.extractLsb'_toNat, Nat.shiftRight_eq_div_pow, BitVec.toNat_ofNat]
  omega

theorem isCanonical_of_illegal {w : CmdWord} {hdr : BitVec 8} (h : decode w = .illegal hdr) : isCanonical w = false := by
  have hl := exists_decode_illegal_iff.1 ⟨hdr, h⟩
  rw [listedHeader_iff_tests] at hl
  push Not at hl
  obtain ⟨h0, h1, h2, h3⟩ := hl
  simp [isCanonical, h0, h1, h2, h3]

/-- A word that is a command is canonical when its payload is the one `encode` writes. -/
theorem isCanonical_of_command {w : CmdWord} {i : Instr} (h : decode w = .command i) :
    isCanonical w = true ↔ i.payload = payloadPart w := by
  obtain ⟨hh, hd⟩ | ⟨hh, hd⟩ | ⟨hh, hd⟩ | ⟨hh, hd⟩ | ⟨-, hd⟩ := decode_cases w <;> cases hd.symm.trans h
  · simp [isCanonical, hh, Instr.payload, setWidth_seedField_eq_iff]
  · simp [isCanonical, hh, Instr.payload, cat64_halves]
  · have hne : ∀ hdr : BitVec 8, hdr.extractLsb' 4 4 = 0x8#4 → hdr ≠ 0x00#8 ∧ hdr ≠ 0x40#8 := by decide
    obtain ⟨h0, h1⟩ := hne _ hh
    simp [isCanonical, h0, h1, hh, Instr.payload]
  · simp [isCanonical, hh, Instr.payload, eq_comm]

/-- The canonical words are the ones some command decoded from them encodes back to. -/
theorem exists_encode_eq_iff (w : CmdWord) :
    (∃ i, decode w = .command i ∧ encode i = w) ↔ isCanonical w = true := by
  cases hd : decode w with
  | illegal hdr => simp [isCanonical_of_illegal hd]
  | command i => simp [isCanonical_of_command hd, encode_eq_iff, header_of_decode hd]

theorem isCanonical_encode (i : Instr) : isCanonical (encode i) = true :=
  (exists_encode_eq_iff _).1 ⟨_, decode_encode i, encode_clearIgnored i⟩

/-- Settles O6: each test fixes the operands as slices of the word, the decoder reads back what `encode` keeps
(`decode_encode`), and a word is canonical when its payload is the one `encode` writes (`isCanonical_of_command`). -/
theorem decodeEncodeAgree : Obligations.DecodeEncodeAgree := by
  refine ⟨fun w => ⟨rfl, decode_of_reset_slices, decode_of_block_slices, decode_of_tail_slices, decode_of_hash, ?_⟩,
    by decide, isCanonical_encode, fun i hi => ?_, exists_encode_eq_iff⟩
  · intro h0 h1 h2 h3
    rw [← extractLsb'_headerOf (start := 4) (by decide)] at h2
    exact decode_of_unlisted (by simp [listedHeader_iff_tests, h0, h1, h2, h3])
  · rw [decode_encode, clearIgnored_of_wellFormed hi]

/-! ### The rows of the opcode table (30_encoding.md R73) -/

/-- The header bits a command's row of the table tests. -/
def Instr.headerMask : Instr → BitVec 8
  | .tail _ _ => 0xF0#8
  | _ => 0xFF#8

theorem tableMask_eq (i : Instr) : tableMask i = makeWord i.headerMask 0#128 := by
  cases i <;> (simp only [tableMask, Instr.headerMask]; decide)

theorem encode_and_tableMask (i : Instr) : encode i &&& tableMask i = tableMatch i := by
  cases i with
  | reset seed => exact Laws.FitsTableRow.reset seed
  | block k1 k2 => exact Laws.FitsTableRow.block k1 k2
  | tail n data => exact Laws.FitsTableRow.tail n data
  | hash => exact Laws.FitsTableRow.hash

/-- A row of the table looks at the header alone. -/
theorem and_tableMask_eq_iff {w : CmdWord} {i : Instr} :
    w &&& tableMask i = tableMatch i ↔ headerOf w &&& i.headerMask = i.header &&& i.headerMask := by
  rw [← encode_and_tableMask, tableMask_eq, encode, ← makeWord_parts w, Laws.makeWord_and_mask, Laws.makeWord_and_mask,
    headerOf_makeWord]
  exact ⟨fun h => by simpa using congrArg headerOf h, congrArg (makeWord · _)⟩

theorem and_tableMask_of_decode {w : CmdWord} {i : Instr} (h : decode w = .command i) :
    w &&& tableMask i = tableMatch i :=
  and_tableMask_eq_iff.2 (by rw [header_of_decode h])

/-- The rows of the four commands are the four tests of `legalHeader`. -/
theorem listedHeader_of_and_headerMask {i : Instr} {hdr : BitVec 8}
    (h : hdr &&& i.headerMask = i.header &&& i.headerMask) : ListedHeader hdr := by
  have htail : ∀ n : BitVec 4, (0x8#4 ++ n : BitVec 8) &&& 0xF0#8 = 0x80#8 := by decide
  rw [listedHeader_iff]
  cases i <;> simp_all [legalHeader, Instr.header, Instr.headerMask]

theorem exists_and_tableMask_iff (w : CmdWord) :
    (∃ i : Instr, w &&& tableMask i = tableMatch i) ↔ ListedHeader (headerOf w) := by
  constructor
  · rintro ⟨i, h⟩
    exact listedHeader_of_and_headerMask (and_tableMask_eq_iff.1 h)
  · intro h
    obtain ⟨i, hd⟩ := exists_decode_command_iff.2 h
    exact ⟨i, and_tableMask_of_decode hd⟩

/-! ### The count of the header values (30_encoding.md R73, R74) -/

/-- A count over `m * n` values, as `m` counts over `n` values each. -/
theorem countP_range_mul (p : Nat → Bool) (m n : Nat) :
    (List.range (m * n)).countP p = ((List.range m).map (fun a => (List.range n).countP (fun b => p (a * n + b)))).sum := by
  induction m with
  | zero => simp
  | succ m ih =>
    rw [Nat.succ_mul, List.range_add, List.countP_append, List.countP_map, ih, List.range_succ]
    simp [Function.comp_def]

/-- The header values counted by their upper half, so that a count of all 256 is 16 short ones. -/
theorem countP_headers (p : Nat → Bool) : (List.range 256).countP p =
    ((List.range 16).map (fun a => (List.range 16).countP (fun b => p (a * 16 + b)))).sum :=
  countP_range_mul p 16 16

theorem not_listedHeader_iff_fields : ∀ h : BitVec 8, ¬ ListedHeader h ↔
    (rsvField h ≠ 0#2 ∨ (rsvField h = 0#2 ∧ opField h ≠ 0b10#2 ∧ nField h ≠ 0#4)) := by decide

/-- Settles O5: a word is decoded by its header (`decode_command_or_illegal`), and a row of the table tests the header alone
(`and_tableMask_eq_iff`); the counts go by the header's upper half. -/
theorem headerSelectsTheCommand : Obligations.HeaderSelectsTheCommand := by
  refine ⟨fun w => ⟨fun h => ⟨_, decode_of_reset h⟩, fun h => ⟨_, _, decode_of_block h⟩,
    fun n h => ⟨_, decode_of_tail h⟩, decode_of_hash, decode_of_unlisted⟩, ?_, ?_, ?_, not_listedHeader_iff_fields,
    fun w i => and_tableMask_of_decode, exists_and_tableMask_iff, fun w s => executeWord_of_illegal⟩
  · rw [countP_headers]; decide
  · rw [countP_headers]; decide
  · rw [countP_headers]; decide

/-! ### Ignored bits (30_encoding.md R70) -/

theorem payloadPart_getLsbD (w : CmdWord) (j : Nat) :
    (payloadPart w).getLsbD j = (decide (j < 128) && w.getLsbD j) := by
  simp [payloadPart]

theorem exec_clearIgnored (i : Instr) (s : State) : exec i.clearIgnored s = exec i s := by
  cases i with
  | tail n data => simp only [Instr.clearIgnored, exec_tail, tailHasher, tailK, maskLanes_maskLanes]
  | _ => rfl

/-- Words that are one command but for ignored bits have one effect. -/
theorem executeWord_eq_of_clearIgnored {w v : CmdWord} {i j : Instr} (hw : decode w = .command i)
    (hv : decode v = .command j) (h : i.clearIgnored = j.clearIgnored) (s : State) : executeWord w s = executeWord v s := by
  simp only [executeWord, hw, hv]
  rw [← exec_clearIgnored i, h, exec_clearIgnored]

/-- Two words with one header that agree on the bits their command uses have one effect. -/
theorem executeWord_eq_of_used_bits {w v : CmdWord} (hh : headerOf w = headerOf v)
    (hseed : headerOf w = 0x00#8 → w.extractLsb' 0 32 = v.extractLsb' 0 32)
    (hblock : headerOf w = 0x40#8 → payloadPart w = payloadPart v)
    (htail : ∀ n : BitVec 4, headerOf w = 0x8#4 ++ n → ∀ j < 8 * n.toNat, w.getLsbD j = v.getLsbD j) (s : State) :
    executeWord w s = executeWord v s := by
  obtain ⟨h, -⟩ | ⟨h, hd⟩ | ⟨h, -⟩ | ⟨h, hd⟩ | ⟨-, hd⟩ := decode_cases w
  · exact executeWord_eq_of_clearIgnored (decode_of_reset_slices h) (decode_of_reset_slices (hh.symm.trans h))
      (by rw [hseed h]) s
  · exact executeWord_eq_of_clearIgnored hd (decode_of_block (hh.symm.trans h)) (by rw [hblock h]) s
  · have hn := eq_append_nField_of_tail _ h
    refine executeWord_eq_of_clearIgnored (decode_of_tail hn) (decode_of_tail (hh.symm.trans hn)) ?_ s
    have hlanes : maskLanes (nField (headerOf w)).toNat (payloadPart w) =
        maskLanes (nField (headerOf w)).toNat (payloadPart v) := by
      refine maskLanes_congr fun j hj => ?_
      rw [payloadPart_getLsbD, payloadPart_getLsbD, htail _ hn j hj]
    rw [Instr.clearIgnored, Instr.clearIgnored, hlanes]
  · exact executeWord_eq_of_clearIgnored hd (decode_of_hash (hh.symm.trans h)) rfl s
  · have hl : ¬ ListedHeader (headerOf w) := exists_decode_illegal_iff.1 ⟨_, hd⟩
    rw [executeWord_of_illegal hl, executeWord_of_illegal (hh ▸ hl), hh]

theorem isCanonical_of_assembleLine {l : AsmLine} {ws : List CmdWord} (h : assembleLine l = some ws) :
    ∀ w ∈ ws, isCanonical w = true := by
  obtain ⟨is, -, rfl⟩ := Option.map_eq_some_iff.1 h
  intro w hw
  obtain ⟨i, -, rfl⟩ := List.mem_map.1 hw
  exact isCanonical_encode i

/-- Settles O8: a command executes as it does with its ignored bits cleared (`exec_clearIgnored`), legality is decoded from the
header, and the assembler's words are `encode`'s. -/
theorem ignoredBitsHaveNoEffect : Obligations.IgnoredBitsHaveNoEffect :=
  ⟨fun _ _ hh hseed hblock htail => executeWord_eq_of_used_bits hh hseed hblock htail,
    fun _ => exists_decode_illegal_iff, fun _ _ => isCanonical_of_assembleLine⟩

end Sys2Proof
end

section
/-! The byte-serial image of a word and of a program (30_encoding.md R63). -/

namespace Sys2Proof

open Machine

/-! ### A payload and its lanes (20_memory.md R41) -/

theorem leNat_append (as bs : List Byte) : leNat (as ++ bs) = leNat as + 256 ^ as.length * leNat bs := by
  rw [leNat_eq_ofDigits, leNat_eq_ofDigits, leNat_eq_ofDigits, List.map_append, Nat.ofDigits_append, List.length_map]

theorem lane_toNat (d : Payload) (i : Nat) : (lane d i).toNat = d.toNat / 256 ^ i % 256 := by
  rw [lane, BitVec.extractLsb'_toNat, Nat.shiftRight_eq_div_pow, pow_mul]
  rfl

/-- The first `n` lanes are the low `8 * n` bits of the payload. -/
theorem leNat_map_lane_range (d : Payload) (n : Nat) : leNat ((List.range n).map (lane d)) = d.toNat % 256 ^ n := by
  induction n with
  | zero => simp [leNat, Nat.mod_one]
  | succ n ih => simp [List.range_succ, leNat_append, ih, leNat, lane_toNat, Nat.mod_pow_succ]

@[simp] theorem length_lanesOf (d : Payload) : (lanesOf d).length = 16 := by simp [lanesOf]

theorem leNat_lanesOf (d : Payload) : leNat (lanesOf d) = d.toNat := by
  rw [lanesOf, leNat_map_lane_range]
  exact Nat.mod_eq_of_lt d.isLt

theorem payloadOf_lanesOf (d : Payload) : payloadOf (lanesOf d) = d := by
  apply BitVec.eq_of_toNat_eq
  rw [payloadOf_toNat, leNat_lanesOf, Nat.mod_eq_of_lt d.isLt]

theorem getElem?_lanesOf {i : Nat} (h : i < 16) (d : Payload) : (lanesOf d)[i]? = some (lane d i) := by
  simp [lanesOf, h]

/-- A payload is the sum of its lanes at their weights. -/
theorem toNat_eq_sum_lanes (d : Payload) :
    d.toNat = ((List.range 16).map (fun i => (lane d i).toNat * 2 ^ (8 * i))).sum := by
  have hfull : (lanesOf d).take 16 = lanesOf d := List.take_of_length_le (by simp)
  rw [← leNat_lanesOf, ← hfull, leNat_take_eq_sum (by simp)]
  refine congrArg List.sum (List.map_congr_left fun i hi => ?_)
  rw [List.getD_eq_getElem?_getD, getElem?_lanesOf (List.mem_range.1 hi), Option.getD_some]

/-! ### The image of a word -/

@[simp] theorem length_imageOf (w : CmdWord) : (imageOf w).length = 17 := by simp [imageOf]

theorem getElem?_imageOf_succ {i : Nat} (h : i < 16) (w : CmdWord) :
    (imageOf w)[1 + i]? = some (w.extractLsb' (8 * i) 8) := by
  rw [imageOf, Nat.add_comm, List.getElem?_cons_succ, getElem?_lanesOf h, lane, extractLsb'_payloadPart (by omega)]

theorem toNat_eq_header_add_payload (w : CmdWord) :
    w.toNat = (headerOf w).toNat * 2 ^ 128 + (payloadPart w).toNat := by
  have hw := w.isLt
  simp only [headerOf, payloadPart, BitVec.extractLsb'_toNat, Nat.shiftRight_eq_div_pow]
  omega

theorem wordOfImage_imageOf (w : CmdWord) : wordOfImage (imageOf w) = some w :=
  wordOfImage_cons_eq_some.2 ⟨length_lanesOf _, by rw [payloadOf_lanesOf, makeWord_parts]⟩

/-! ### The image of a program -/

theorem programImage_cons (w : CmdWord) (ws : List CmdWord) : programImage (w :: ws) = imageOf w ++ programImage ws := rfl

/-- Command `j` of a program starts at byte `17 * j`. -/
theorem take_drop_programImage {ws : List CmdWord} {j : Nat} {w : CmdWord} (h : ws[j]? = some w) :
    ((programImage ws).drop (17 * j)).take 17 = imageOf w := by
  induction ws generalizing j with
  | nil => simp at h
  | cons v ws ih =>
    rw [programImage_cons]
    cases j with
    | zero =>
      obtain rfl : v = w := by simpa using h
      simp
    | succ j =>
      have hdrop : (imageOf v ++ programImage ws).drop (17 * (j + 1)) = (programImage ws).drop (17 * j) := by
        rw [Nat.mul_succ, Nat.add_comm, ← List.drop_drop, List.drop_left' (length_imageOf v)]
      rw [hdrop]
      exact ih (by simpa using h)

/-- Reading takes a whole image off the front. -/
theorem wordsOfImage_imageOf_append (fuel : Nat) (w : CmdWord) (bs : List Byte) :
    wordsOfImage (fuel + 1) (imageOf w ++ bs) = (wordsOfImage fuel bs).map (w :: ·) := by
  have htake : (imageOf w ++ bs).take 17 = imageOf w := List.take_left' (length_imageOf w)
  have hdrop : (imageOf w ++ bs).drop 17 = bs := List.drop_left' (length_imageOf w)
  have hcons : imageOf w ++ bs = headerOf w :: (lanesOf (payloadPart w) ++ bs) := rfl
  rw [hcons] at htake hdrop ⊢
  rw [wordsOfImage, htake, hdrop, wordOfImage_imageOf]

theorem wordsOfImage_programImage (ws : List CmdWord) : wordsOfImage ws.length (programImage ws) = some ws := by
  induction ws with
  | nil => rfl
  | cons w ws ih => rw [programImage_cons, List.length_cons, wordsOfImage_imageOf_append, ih, Option.map_some]

/-- Settles O9: the lanes put together are the payload (`payloadOf_lanesOf`), and every image has 17 bytes, so a program is cut
and read image by image. -/
theorem byteSerialImage : Obligations.ByteSerialImage := by
  refine ⟨fun w => ⟨length_imageOf w, rfl, fun i hi => getElem?_imageOf_succ hi w, ?_, wordOfImage_imageOf w⟩,
    fun ws j w => take_drop_programImage, wordsOfImage_programImage⟩
  rw [← toNat_eq_sum_lanes]
  exact toNat_eq_header_add_payload w

end Sys2Proof
end

section
/-! The response handshake (30_encoding.md R66): the port signals, the edge on which a digest is taken, and what leaves the
queue as it is. -/

namespace Sys2Proof.Machine

theorem portRspValid_eq_one {s : State} : portRspValid s = 1#1 ↔ s.rspQ ≠ [] := by
  unfold portRspValid
  cases s.rspQ with
  | nil => simp
  | cons d ds => simp

theorem portRsp_of_cons {s : State} {d : RspWord} {ds : List RspWord} (h : s.rspQ = d :: ds) : portRsp s = some d := by
  rw [portRsp, h, List.head?_cons]

theorem portRspReady_eq_one {s : State} : portRspReady s = 1#1 ↔ nextEdge s.sched = .take := by
  unfold portRspReady
  by_cases h : nextEdge s.sched = .take
  · simp [h]
  · simp [h]

/-- At an edge with `RSP_READY` the event is the host's taking. -/
theorem sched_of_rspReady {s : State} (he : atEdge s = true) (hr : portRspReady s = 1#1) :
    ∃ rest, s.sched = .take :: rest := by
  have hedge : s.sched.head?.getD .accept = .take := by
    rw [← atEdge_nextEdge he, portRspReady_eq_one.1 hr]
  cases hs : s.sched with
  | nil => simp [hs] at hedge
  | cons m rest =>
    obtain rfl : m = .take := by simpa [hs] using hedge
    exact ⟨rest, rfl⟩

theorem step_of_take {s : State} {rest : List Move} {d : RspWord} {ds : List RspWord} (hs : s.sched = .take :: rest)
    (hq : s.rspQ = d :: ds) : step s = .next { s with rspQ := ds, taken := s.taken ++ [d], sched := rest } := by
  rw [step_of_scheduled hs, runMove, takeDigest_of_cons (s := withSched rest s) hq]
  rfl

theorem step_of_rspHandshake {s : State} (he : atEdge s = true) (hv : portRspValid s = 1#1) (hr : portRspReady s = 1#1) :
    ∃ d ds, portRsp s = some d ∧ s.rspQ = d :: ds ∧
      step s = .next { s with rspQ := ds, taken := s.taken ++ [d], sched := s.sched.tail } := by
  obtain ⟨rest, hs⟩ := sched_of_rspReady he hr
  obtain ⟨d, ds, hq⟩ := List.exists_cons_of_ne_nil (portRspValid_eq_one.1 hv)
  exact ⟨d, ds, portRsp_of_cons hq, hq, by rw [step_of_take hs hq, hs, List.tail_cons]⟩

theorem rspQ_of_illegal {w : CmdWord} {s t : State} (h : executeWord w s = .next t) (hw : ¬ ListedHeader (headerOf w)) :
    t.rspQ = s.rspQ := by
  cases (executeWord_of_illegal (s := s) hw).symm.trans h
  exact raiseIllegalCommand_rspQ _ _

/-- Settles O31: the handshake's edge is the host's taking (`sched_of_rspReady`), and a step that is no hardware reset appends
to the emitted digests (`emitted_of_step`). -/
theorem responseHandshake : Obligations.ResponseHandshake :=
  ⟨fun _ => portRspValid_eq_one, fun _ _ _ => portRsp_of_cons, fun _ _ _ _ => step_of_take, fun _ => step_of_rspHandshake,
    fun _ _ h hm => ⟨_, emitted_of_step h hm⟩, fun _ _ _ => rspQ_of_illegal⟩

end Sys2Proof.Machine
end

section
/-! The RESET command (40_reset.md): the seed it loads, the words that stand for it, and what a command sequence after it
depends on. -/

namespace Sys2Proof.Machine

/-! ### The seed's extension (40_reset.md R90) -/

theorem seedExt_zero (seed : BitVec 32) : seedExt .zero seed = (0#32 ++ seed : BitVec 64) :=
  BitVec.setWidth_eq_append (x := seed) (w := 64) (by decide)

theorem seedExt_sign_of_negative {seed : BitVec 32} (h : seed.getLsbD 31 = true) :
    seedExt .sign seed = (0xFFFFFFFF#32 ++ seed : BitVec 64) := by
  have hmsb : seed.msb = true := (BitVec.msb_eq_getLsbD_last seed).trans h
  rw [seedExt, sext64, BitVec.signExtend_eq_append_of_le (by decide), if_pos hmsb]
  rfl

theorem seedExt_sign_of_nonnegative {seed : BitVec 32} (h : seed.getLsbD 31 = false) :
    seedExt .sign seed = seedExt .zero seed :=
  BitVec.signExtend_eq_setWidth_of_msb_false ((BitVec.msb_eq_getLsbD_last seed).trans h)

/-- Settles O12: the zero and the sign extension as an upper half put before the seed, by the seed's bit 31. -/
theorem seedExtension : Obligations.SeedExtension :=
  ⟨seedExt_zero, fun _ => seedExt_sign_of_negative, fun _ => seedExt_sign_of_nonnegative, by decide, by decide, rfl⟩

/-! ### The word of RESET (40_reset.md R91) -/

theorem executeWord_of_command {w : CmdWord} {i : Instr} (h : decode w = .command i) (s : State) :
    executeWord w s = exec i s := by
  rw [executeWord, h]

theorem executeWord_encode_reset (seed : BitVec 32) (s : State) :
    executeWord (encode (.reset seed)) s = .next (setHasher (seedHasher s.cfg.seedExt seed) s) :=
  (executeWord_of_command (decode_encode (.reset seed)) s).trans (exec_reset seed s)

/-- The headers with RESET's upper half and a count that is not 0 are illegal. -/
theorem not_listedHeader_of_le_0x0F : ∀ hdr : BitVec 8, 0x01#8 ≤ hdr → hdr ≤ 0x0F#8 → ¬ ListedHeader hdr := by decide

/-- Seed 1 is 1 under either extension. -/
theorem seedExt_one (ext : SeedExt) : seedExt ext 1#32 = 1#64 := by
  cases ext with
  | sign => decide
  | zero => decide

theorem runInstrs_singleton {i : Instr} {s t : State} (h : exec i s = .next t) : runInstrs [i] s = exec i s := by
  rw [runInstrs_cons h, h, runInstrs]

/-- Of two RESETs the second counts: it writes all of the triple that the first wrote. -/
theorem runInstrs_reset_reset (s : State) (a b : BitVec 32) : runInstrs [.reset a, .reset b] s = exec (.reset b) s := by
  rw [runInstrs_cons (exec_reset a s), runInstrs_singleton (exec_reset b _), exec_reset, exec_reset, setHasher_setHasher,
    setHasher_cfg]

/-- RESET with seed 0 finds nothing to write after hardware reset. -/
theorem exec_reset_zero_hardwareReset (s : State) :
    exec (.reset 0#32) (hardwareReset s) = .next (hardwareReset s) := by
  rw [exec_reset, seedHasher_zero]
  rfl

/-- Settles O13: RESET is one write of the hasher triple (`exec_reset`), its word is the one the header 0x00 selects, and the
example's image is the word of RESET 1. -/
theorem resetCommandLoadsTheSeed : Obligations.ResetCommandLoadsTheSeed := by
  refine ⟨fun s seed => ⟨_, exec_reset seed s, by simp [seedHasher]⟩,
    fun w s h => executeWord_of_command (decode_of_reset_slices h) s,
    fun w h1 hF => decode_of_unlisted (not_listedHeader_of_le_0x0F _ h1 hF), exec_reset_zero_hardwareReset,
    runInstrs_reset_reset, fun s w himage => ?_⟩
  obtain ⟨-, hword⟩ := wordOfImage_cons_eq_some.1 himage
  obtain rfl : encode (.reset 1#32) = w := Eq.trans (by decide) hword
  exact ⟨by decide, _, executeWord_encode_reset 1#32 s, seedExt_one _, seedExt_one _, rfl⟩

/-! ### What a command sequence leaves and emits, as functions of the triple before it (10_state.md R32) -/

/-- The hasher triple after a command sequence. -/
def hasherAlong (ext : SeedExt) : List Instr → Hasher → Hasher
  | [], h => h
  | i :: is, h => hasherAlong ext is (hasherAfter ext i h)

/-- The digests a command sequence appends to the response queue, in order. -/
def digestsAlong (ext : SeedExt) : List Instr → Hasher → List RspWord
  | [], _ => []
  | i :: is, h => digestsOf i h ++ digestsAlong ext is (hasherAfter ext i h)

theorem exec_completes (i : Instr) (s : State) : ∃ t, exec i s = .next t := by
  obtain ⟨-, h, he⟩ | ⟨-, he⟩ := exec_cases i s
  · exact ⟨_, he⟩
  · exact ⟨_, he⟩

/-- Every command sequence completes. Of the state before it, what it leaves in the triple and what it emits read the triple
and `SEED_EXT` alone. -/
theorem runInstrs_completes (is : List Instr) (s : State) : ∃ t, runInstrs is s = .next t ∧
    hasherOf t = hasherAlong s.cfg.seedExt is (hasherOf s) ∧
    t.rspQ = s.rspQ ++ digestsAlong s.cfg.seedExt is (hasherOf s) := by
  induction is generalizing s with
  | nil => exact ⟨s, rfl, rfl, (List.append_nil _).symm⟩
  | cons i is ih =>
    obtain ⟨u, hu⟩ := exec_completes i s
    obtain ⟨-, -, hcfg, -⟩ := exec_frame hu
    obtain ⟨t, ht, hh, hq⟩ := ih u
    rw [hcfg, hasherOf_of_exec hu] at hh hq
    refine ⟨t, (runInstrs_cons hu).trans ht, hh, ?_⟩
    rw [hq, rspQ_of_exec hu, List.append_assoc, digestsAlong]

/-- After RESET the sequence starts from the seed's triple, whatever the triple before. -/
theorem runInstrs_reset_completes (is : List Instr) (seed : BitVec 32) (s : State) :
    ∃ t, runInstrs (.reset seed :: is) s = .next t ∧
      hasherOf t = hasherAlong s.cfg.seedExt is (seedHasher s.cfg.seedExt seed) ∧
      t.rspQ = s.rspQ ++ digestsAlong s.cfg.seedExt is (seedHasher s.cfg.seedExt seed) :=
  runInstrs_completes (.reset seed :: is) s

/-- Settles O14: both sequences start from the seed's triple (`runInstrs_reset_completes`), which for seed 0 is the one of
hardware reset (`seedHasher_zero`). -/
theorem resetEquivalence : Obligations.ResetEquivalence := by
  refine ⟨fun is seed s u hcfg => ?_, fun is s => ?_⟩
  · obtain ⟨t, ht, hth, htq⟩ := runInstrs_reset_completes is seed s
    obtain ⟨v, hv, hvh, hvq⟩ := runInstrs_reset_completes is seed u
    rw [← hcfg] at hvh hvq
    exact ⟨t, v, _, ht, hv, hth.trans hvh.symm, htq, hvq⟩
  · obtain ⟨t, ht, hth, htq⟩ := runInstrs_reset_completes is 0#32 s
    obtain ⟨v, hv, hvh, hvq⟩ := runInstrs_completes is (hardwareReset s)
    rw [seedHasher_zero] at hth htq
    exact ⟨t, v, _, ht, hv, hth.trans hvh.symm, htq, hvq⟩

/-! ### What RESET leaves to hardware reset (40_reset.md R93) -/

/-- In the fault state the core's turn takes no word. -/
theorem coreStep_of_fault {s : State} (h : s.fault = true) : coreStep s = .next s := by
  cases hc : s.cmds with
  | nil => exact coreStep_of_idle hc
  | cons w ws => exact coreStep_of_held hc (by simp [acceptsWord, h])

theorem step_of_fault_coreTurn {s : State} {rest : List Move} (h : s.fault = true) (ht : CoreTurn s rest) :
    step s = .next (withSched rest s) := by
  rw [step_of_coreTurn ht, coreStep_of_fault (s := withSched rest s) h]

/-- Settles O15: RESET writes the triple and nothing else, the fault state takes no word of any kind
(`step_of_fault_coreTurn`), and hardware reset writes the record and the queue. -/
theorem resetCommandLeavesFaultAndQueue : Obligations.ResetCommandLeavesFaultAndQueue := by
  refine ⟨fun s t seed h => ?_, fun s w ws rest hf _ _ ht => step_of_fault_coreTurn hf ht,
    fun s rest hs => ⟨_, step_of_hardReset hs, rfl, rfl, rfl⟩⟩
  cases exec_reset_next h
  exact ⟨rfl, rfl, rfl, rfl⟩

end Sys2Proof.Machine
end

section
/-! The block mixer (41_block_mixer.md): the key mixes and the block update as written in the spec, that each is a bijection, and
the command BLOCK. -/

namespace Sys2Proof.Machine

/-! ### The functions as the spec writes them (41_block_mixer.md R100 to R102) -/

theorem mixK1_eq (k : Word) : mixK1 k = (k * 0x87c37b91114253d5#64).rotateLeft 31 * 0x4cf5ad432745937f#64 := by
  rw [mixK1, rotl64_eq_rotateLeft _ _ (by decide)]
  rfl

theorem mixK2_eq (k : Word) : mixK2 k = (k * 0x4cf5ad432745937f#64).rotateLeft 33 * 0x87c37b91114253d5#64 := by
  rw [mixK2, rotl64_eq_rotateLeft _ _ (by decide)]
  rfl

/-- Settles O16: both equations are the definitions with the library's rotation; the rest is the worked values. -/
theorem keyMixFunctions : Obligations.KeyMixFunctions :=
  ⟨mixK1_eq, mixK2_eq, by decide, by decide⟩

theorem bmixFirst_eq (h1 h2 k1 : Word) :
    bmixFirst h1 h2 k1 = ((h1 ^^^ mixK1 k1).rotateLeft 27 + h2) * 5#64 + 0x0000000052dce729#64 := by
  rw [bmixFirst, rotl64_eq_rotateLeft _ _ (by decide)]
  rfl

theorem bmixSecond_eq (h1New h2 k2 : Word) :
    bmixSecond h1New h2 k2 = ((h2 ^^^ mixK2 k2).rotateLeft 31 + h1New) * 5#64 + 0x0000000038495ab5#64 := by
  rw [bmixSecond, rotl64_eq_rotateLeft _ _ (by decide)]
  rfl

/-- Settles O17: the two halves of the pair, the second one given the first as its new first word. -/
theorem blockMixUpdate : Obligations.BlockMixUpdate :=
  fun h1 h2 k1 k2 => ⟨bmixFirst h1 h2 k1, bmixSecond (bmixFirst h1 h2 k1) h2 k2, rfl, bmixFirst_eq h1 h2 k1,
    bmixSecond_eq _ h2 k2⟩

/-! ### Invertibility (41_block_mixer.md R105) -/

/-- An odd word has an inverse modulo `2 ^ 64`. -/
theorem mul_odd_bijective {c : Word} (h : Odd c.toNat) : Function.Bijective (· * c) := by
  rw [← IsUnit.isUnit_iff_mulRight_bijective]
  have hcop : c.toNat.Coprime (2 ^ 64) := h.coprime_two_right.pow_right 64
  obtain ⟨m, -, hm⟩ := Nat.exists_mul_mod_eq_one_of_coprime hcop (by decide)
  refine IsUnit.of_mul_eq_one (BitVec.ofNat 64 m) (BitVec.eq_of_toNat_eq ?_)
  rw [BitVec.toNat_mul, BitVec.toNat_ofNat, Nat.mul_mod_mod, hm]
  rfl

/-- Rotating by the rest of the width undoes a rotation. -/
theorem rotl64_rotl64_sub {r : Nat} (h0 : 0 < r) (h : r < 64) (a : Word) : rotl64 (rotl64 a r) (64 - r) = a := by
  rw [rotl64_eq_rotateLeft _ _ h, rotl64_eq_rotateLeft _ _ (by omega)]
  apply BitVec.eq_of_getElem_eq
  intro i hi
  have hr : 64 - r < 64 := by omega
  simp only [BitVec.getElem_rotateLeft, Nat.mod_eq_of_lt h, Nat.mod_eq_of_lt hr]
  by_cases hlow : i < 64 - r
  · rw [dif_pos hlow, dif_neg (by omega)]
    congr 1
    omega
  · rw [dif_neg hlow, dif_pos (by omega)]
    congr 1
    omega

theorem rotl64_bijective {r : Nat} (h0 : 0 < r) (h : r < 64) : Function.Bijective (rotl64 · r) := by
  refine Function.bijective_iff_has_inverse.2 ⟨(rotl64 · (64 - r)), rotl64_rotl64_sub h0 h, fun a => ?_⟩
  have hback : rotl64 (rotl64 a (64 - r)) (64 - (64 - r)) = a := rotl64_rotl64_sub (by omega) (by omega) a
  rwa [Nat.sub_sub_self h.le] at hback

theorem mixK1_bijective : Function.Bijective mixK1 :=
  (mul_odd_bijective (c := constC2) (by decide)).comp
    ((rotl64_bijective (r := 31) (by decide) (by decide)).comp (mul_odd_bijective (c := constC1) (by decide)))

theorem mixK2_bijective : Function.Bijective mixK2 :=
  (mul_odd_bijective (c := constC1) (by decide)).comp
    ((rotl64_bijective (r := 33) (by decide) (by decide)).comp (mul_odd_bijective (c := constC2) (by decide)))

theorem xor_bijective (m : Word) : Function.Bijective (· ^^^ m) :=
  Function.Involutive.bijective fun a => by simp

/-- The shape the two halves of the update share: XOR, rotation, addition, odd multiplier, addition. -/
theorem bmixHalf_bijective (m a n : Word) {r : Nat} (h0 : 0 < r) (h : r < 64) :
    Function.Bijective fun x : Word => (rotl64 (x ^^^ m) r + a) * blockMul + n :=
  (AddGroup.addRight_bijective n).comp <| (mul_odd_bijective (c := blockMul) (by decide)).comp <|
    (AddGroup.addRight_bijective a).comp <| (rotl64_bijective h0 h).comp (xor_bijective m)

theorem bmixFirst_bijective (h2 k1 : Word) : Function.Bijective (bmixFirst · h2 k1) :=
  bmixHalf_bijective (mixK1 k1) h2 constN1 (r := 27) (by decide) (by decide)

theorem bmixSecond_bijective (h1New k2 : Word) : Function.Bijective (bmixSecond h1New · k2) :=
  bmixHalf_bijective (mixK2 k2) h1New constN2 (r := 31) (by decide) (by decide)

/-- The pair is recovered in the order opposite to the update's: the second half gives the old `h2` from the new words, and
with it the first half gives the old `h1`. -/
theorem bmix64_bijective (k1 k2 : Word) : Function.Bijective fun p : Word × Word => bmix64 p.1 p.2 k1 k2 := by
  constructor
  · rintro ⟨h1, h2⟩ ⟨g1, g2⟩ h
    obtain ⟨hfirst, hsecond⟩ := Prod.mk.inj h
    rw [hfirst] at hsecond
    obtain rfl : h2 = g2 := (bmixSecond_bijective _ k2).injective hsecond
    obtain rfl : h1 = g1 := (bmixFirst_bijective h2 k1).injective hfirst
    rfl
  · rintro ⟨n1, n2⟩
    obtain ⟨h2, rfl⟩ := (bmixSecond_bijective n1 k2).surjective n2
    obtain ⟨h1, rfl⟩ := (bmixFirst_bijective h2 k1).surjective n1
    exact ⟨(h1, h2), rfl⟩

/-- Settles O20: the update's halves are inverted one after the other (`bmix64_bijective`); a key mix is a rotation between two
multiplications by odd constants. -/
theorem mixingIsInvertible : Obligations.MixingIsInvertible :=
  ⟨bmix64_bijective, mixK1_bijective, mixK2_bijective⟩

/-! ### The command BLOCK (41_block_mixer.md R103) -/

theorem blockHasher_words (k1 k2 : Word) (h : Hasher) :
    ((blockHasher k1 k2 h).h1, (blockHasher k1 k2 h).h2) = bmix64 h.h1 h.h2 k1 k2 := rfl

theorem blockHasher_length (k1 k2 : Word) (h : Hasher) : (blockHasher k1 k2 h).length = h.length + 16#64 := rfl

/-- The hasher triple the example of R103 leaves. -/
theorem blockHasher_example : blockHasher 0x6369757120656854#64 0x206e776f7262206b#64 (hasherOf State.reset) =
    { h1 := 0x065f54070009580c#64, h2 := 0x1185bfe0bc383732#64, length := 0x10#64 } := by decide

/-- Settles O18: BLOCK is one write of the hasher triple (`exec_block`), its word is the one the header 0x40 selects, and the
example's image is the word of its two key words. What stays is cited from `exec_frame`: checked by unfolding instead, it costs
the kernel an evaluation of the mix. -/
theorem blockCommandMixesTheBlock : Obligations.BlockCommandMixesTheBlock := by
  refine ⟨fun s k1 k2 => ?_, fun w s h => executeWord_of_command (decode_of_block_slices h) s, by decide, by decide, by decide,
    fun s w himage hs => ?_⟩
  · obtain ⟨hfault, hinfo, hcfg, hcmds, htaken, hsched⟩ := exec_frame (exec_block k1 k2 s)
    exact ⟨_, exec_block k1 k2 s, blockHasher_words k1 k2 (hasherOf s), blockHasher_length k1 k2 (hasherOf s), hfault, hinfo,
      setHasher_rspQ _ s, hcfg, hcmds, htaken, hsched⟩
  · obtain ⟨-, hword⟩ := wordOfImage_cons_eq_some.1 himage
    obtain rfl : encode (.block 0x6369757120656854#64 0x206e776f7262206b#64) = w := Eq.trans (by decide) hword
    have hdecode := decode_encode (.block 0x6369757120656854#64 0x206e776f7262206b#64)
    refine ⟨by decide, hdecode, _, (executeWord_of_command hdecode s).trans (exec_block _ _ s), ?_⟩
    rw [hs, blockHasher_example]
    exact ⟨rfl, rfl, rfl⟩

end Sys2Proof.Machine
end

section
/-! The avalanche diffuser (43_avalanche_diffuser.md): `fmix64` and the finalization lose nothing of what they read. -/

namespace Sys2Proof.Machine

/-- Shifting twice by 33 shifts all 64 bits out, so the XOR-shift undoes itself. -/
theorem xorShift_involutive : Function.Involutive xorShift := by
  intro k
  have hout : k >>> fmixShift >>> fmixShift = 0#64 := by
    rw [← BitVec.shiftRight_add]
    exact BitVec.ushiftRight_eq_zero (by decide)
  rw [xorShift, xorShift, BitVec.ushiftRight_xor_distrib, hout, BitVec.xor_zero, BitVec.xor_assoc, BitVec.xor_self,
    BitVec.xor_zero]

/-- `fmix64` is made of XOR-shifts and multiplications by odd constants. -/
theorem fmix64_bijective : Function.Bijective fmix64 :=
  have hshift := xorShift_involutive.bijective
  hshift.comp <| (mul_odd_bijective (c := constF2) (by decide)).comp <| hshift.comp <|
    (mul_odd_bijective (c := constF1) (by decide)).comp hshift

/-- The two additions that `finalize` makes before and after `fmix64` can be undone. -/
theorem eq_of_chained_sums_eq {a b c d : Word} (hfirst : a + b = c + d) (hsecond : b + (a + b) = d + (c + d)) :
    a = c ∧ b = d := by
  rw [hfirst] at hsecond
  obtain rfl : b = d := add_right_cancel hsecond
  exact ⟨add_right_cancel hfirst, rfl⟩

/-- Equal digest pairs come from equal mixing words after the length is XORed in (43_avalanche_diffuser.md R141). -/
theorem xor_length_eq_of_finalize_eq {h1 h2 len g1 g2 len' : Word} (h : finalize h1 h2 len = finalize g1 g2 len') :
    h1 ^^^ len = g1 ^^^ len' ∧ h2 ^^^ len = g2 ^^^ len' := by
  obtain ⟨hd1, hd2⟩ := Prod.mk.inj h
  obtain ⟨hf1, hf2⟩ := eq_of_chained_sums_eq hd1 hd2
  exact eq_of_chained_sums_eq (fmix64_bijective.injective hf1) (fmix64_bijective.injective hf2)

theorem digestOf_inj {g h : Hasher} : digestOf g = digestOf h ↔
    finalize g.h1 g.h2 g.length = finalize h.h1 h.h2 h.length := by
  refine ⟨fun e => Prod.ext ?_ ?_, fun e => by rw [digestOf, digestOf, e]⟩
  · simpa [digestOf] using congrArg highHalf e
  · simpa [digestOf] using congrArg lowHalf e

/-- With the mixing words fixed, the digest tells any two lengths apart. -/
theorem length_eq_of_digestOf_eq {g h : Hasher} (e : digestOf g = digestOf h) (hh1 : g.h1 = h.h1) :
    g.length = h.length := by
  obtain ⟨hx, -⟩ := xor_length_eq_of_finalize_eq (digestOf_inj.1 e)
  rw [hh1] at hx
  exact BitVec.xor_right_inj h.h1 |>.1 hx

end Sys2Proof.Machine
end

section
/-! The tail finalizer (42_tail_finalizer.md): the key words `tailK` gathers, what TAIL does to the hasher triple, and the tails
that leave part of it alone. -/

namespace Sys2Proof.Machine

/-! ### The key words of a tail (42_tail_finalizer.md R120) -/

/-- The masked payload is the payload of the bytes below the count. -/
theorem maskLanes_eq_payloadOf_take (n : Nat) (d : Payload) : maskLanes n d = payloadOf ((lanesOf d).take n) := by
  apply BitVec.eq_of_toNat_eq
  rw [payloadOf_toNat, ← leNat_mod, leNat_lanesOf, Nat.mod_eq_of_lt ((Nat.mod_le _ _).trans_lt d.isLt)]
  apply Nat.eq_of_testBit_eq
  intro j
  have hpow : 256 ^ n = 2 ^ (8 * n) := (pow_mul 2 8 n).symm
  rw [hpow, Nat.testBit_mod_two_pow, BitVec.testBit_toNat, BitVec.testBit_toNat, maskLanes_getLsbD]

/-- `n` lanes from lane `m` on, as a sum: lane `m + i` at bit position `8 * i`. -/
theorem leNat_take_drop_lanesOf {m n : Nat} (h : m + n ≤ 16) (d : Payload) :
    leNat (((lanesOf d).drop m).take n) =
      ((List.range n).map (fun i => (lane d (m + i)).toNat * 2 ^ (8 * i))).sum := by
  rw [leNat_take_eq_sum (by simp; omega)]
  refine congrArg List.sum (List.map_congr_left fun i hi => ?_)
  have hi16 : m + i < 16 := by have := List.mem_range.1 hi; omega
  rw [List.getD_eq_getElem?_getD, List.getElem?_drop, getElem?_lanesOf hi16, Option.getD_some]

theorem tailK_fst_toNat {n : Nat} (h : n ≤ 16) (d : Payload) : (tailK n d).1.toNat =
    ((List.range (min n 8)).map (fun i => (lane d i).toNat * 2 ^ (8 * i))).sum := by
  have hlanes := leNat_take_drop_lanesOf (m := 0) (n := min n 8) (by omega) d
  simp only [List.drop_zero, Nat.zero_add] at hlanes
  rw [tailK, maskLanes_eq_payloadOf_take, lowHalf_payloadOf_toNat, List.take_take, Nat.min_comm, hlanes]

theorem tailK_snd_toNat {n : Nat} (h : n ≤ 16) (d : Payload) : (tailK n d).2.toNat =
    ((List.range (n - 8)).map (fun i => (lane d (8 + i)).toNat * 2 ^ (8 * i))).sum := by
  have hmin : min 8 (n - 8) = n - 8 := by omega
  rw [tailK, maskLanes_eq_payloadOf_take, highHalf_payloadOf_toNat, List.drop_take, List.take_take, hmin,
    leNat_take_drop_lanesOf (by omega)]

theorem tailK_snd_of_le_eight {n : Nat} (h : n ≤ 8) (d : Payload) : (tailK n d).2 = 0#64 := by
  have hnone : n - 8 = 0 := by omega
  apply BitVec.eq_of_toNat_eq
  rw [tailK_snd_toNat (by omega), hnone]
  rfl

theorem tailK_fst_of_eight_le {n : Nat} (h : 8 ≤ n) (d : Payload) : (tailK n d).1 = lowHalf d := by
  apply BitVec.eq_of_getLsbD_eq
  intro j hj
  have hkept : j < 8 * n := by omega
  simp [tailK, lowHalf, maskLanes_getLsbD, hkept]

/-- A tail of zero bytes has zero key words, whatever the lanes above it hold. -/
theorem tailK_of_zero_lanes {n : Nat} {d : Payload} (h : ∀ i < n, lane d i = 0#8) : tailK n d = (0#64, 0#64) := by
  have hmask : maskLanes n d = 0#128 := by
    induction n with
    | zero => rfl
    | succ n ih => simp [maskLanes, ih fun i hi => h i (by omega), h n (by omega)]
  rw [tailK, hmask]
  rfl

theorem tailK_zero (d : Payload) : tailK 0 d = (0#64, 0#64) := tailK_of_zero_lanes (by simp)

/-- Settles O22: the key words are the halves of the bytes below the count (`maskLanes_eq_payloadOf_take`), each read off its
lanes. -/
theorem tailAssembly : Obligations.TailAssembly :=
  ⟨fun _ d hn => ⟨tailK_fst_toNat (by omega) d, tailK_snd_toNat (by omega) d⟩, fun _ d hn => tailK_snd_of_le_eight hn d,
    fun _ d hn => tailK_fst_of_eight_le hn d⟩

/-! ### The command TAIL (42_tail_finalizer.md R121) -/

theorem tailHasher_length (n : BitVec 4) (d : Payload) (h : Hasher) :
    (tailHasher n d h).length = h.length + BitVec.ofNat 64 n.toNat := by
  rw [tailHasher, zext64_eq_ofNat]

/-- The hasher triple the example of R121 leaves. -/
theorem tailHasher_example : tailHasher 4#4 0x6c6c6568#128 (hasherOf State.reset) =
    { h1 := 0xcebd64d8db31fd75#64, h2 := 0#64, length := 4#64 } := by decide

/-- Settles O23: TAIL is one write of the hasher triple (`exec_tail`), its words are those with headers 0x80 to 0x8F, and the
example's image is the word of its four bytes. -/
theorem tailCommandXorsTheTail : Obligations.TailCommandXorsTheTail := by
  refine ⟨fun s n d => ?_, fun w n s h => executeWord_of_command (decode_of_tail h) s, by decide, fun s w himage hs => ?_,
    by decide, by decide⟩
  · obtain ⟨hfault, hinfo, hcfg, hcmds, htaken, hsched⟩ := exec_frame (exec_tail n d s)
    exact ⟨_, exec_tail n d s, rfl, rfl, tailHasher_length n d (hasherOf s), hfault, hinfo, setHasher_rspQ _ s, hcfg, hcmds,
      htaken, hsched⟩
  · obtain ⟨-, hword⟩ := wordOfImage_cons_eq_some.1 himage
    obtain rfl : encode (.tail 4#4 0x6c6c6568#128) = w := Eq.trans (by decide) hword
    have hdecode : decode (encode (.tail 4#4 0x6c6c6568#128)) = .command (.tail 4#4 0x6c6c6568#128) := by decide
    refine ⟨by decide, _, (executeWord_of_command hdecode s).trans (exec_tail _ _ s), ?_⟩
    rw [hs, tailHasher_example]
    exact ⟨rfl, rfl, rfl, by rw [hasherOf_setHasher]; decide⟩

/-! ### Partial effects and the no-op (42_tail_finalizer.md R124, R125) -/

theorem mixK1_zero : mixK1 0#64 = 0#64 := by decide

theorem mixK2_zero : mixK2 0#64 = 0#64 := by decide

theorem tailHasher_h2_of_le_eight {n : BitVec 4} (hn : n.toNat ≤ 8) (d : Payload) (h : Hasher) :
    (tailHasher n d h).h2 = h.h2 := by
  rw [tailHasher, tailK_snd_of_le_eight hn, mixK2_zero, BitVec.xor_zero]

theorem exec_tail_of_zero_lanes {n : BitVec 4} {d : Payload} (h : ∀ i < n.toNat, lane d i = 0#8) (s : State) :
    exec (.tail n d) s = .next { s with length := s.length + BitVec.ofNat 64 n.toNat } := by
  rw [exec_tail, tailHasher, tailK_of_zero_lanes h, mixK1_zero, mixK2_zero, BitVec.xor_zero, BitVec.xor_zero,
    zext64_eq_ofNat]
  rfl

theorem exec_tail_zero (d : Payload) (s : State) : exec (.tail 0#4 d) s = .next s := by
  rw [exec_tail_of_zero_lanes (by simp)]
  simp

theorem executeWord_of_tail_zero {w : CmdWord} (h : headerOf w = 0x80#8) (s : State) : executeWord w s = .next s :=
  (executeWord_of_command (decode_of_tail (n := 0#4) h) s).trans (exec_tail_zero _ s)

/-- Settles O24: TAIL of no byte is the identity (`exec_tail_zero`), so taking its word only takes it; the fault state takes no
word of any kind. -/
theorem tailOfZeroBytesIsTheNoOp : Obligations.TailOfZeroBytesIsTheNoOp := by
  refine ⟨fun s d => exec_tail_zero d s, tailK_zero, mixK1_zero, mixK2_zero, fun s rest w ws ht hc hw ha => ?_,
    fun s rest w ws ht _ _ hf => step_of_fault_coreTurn hf ht⟩
  rw [step_of_coreTurn ht, coreStep_of_accepts (s := withSched rest s) hc ha, executeWord_of_tail_zero hw]
  rfl

/-- Settles O25: what a short tail and a tail of zero bytes leave is read off `tailHasher`; the two last states differ in
`length` alone, which their digests tell apart (`length_eq_of_digestOf_eq`). -/
theorem tailPartialEffects : Obligations.TailPartialEffects := by
  refine ⟨fun s n d hn => ⟨_, exec_tail n d s, tailHasher_h2_of_le_eight hn d (hasherOf s)⟩,
    fun s n d h => ⟨_, exec_tail_of_zero_lanes h s, rfl⟩, fun s => ?_⟩
  have hnone := exec_tail_zero 0#128 s
  have hone := exec_tail_of_zero_lanes (n := 1#4) (d := 0#128) (by decide) s
  refine ⟨_, _, (runInstrs_singleton hnone).trans hnone, (runInstrs_singleton hone).trans hone, rfl, rfl, rfl, fun e => ?_⟩
  have hlength : s.length = s.length + 1#64 := length_eq_of_digestOf_eq e rfl
  exact absurd (left_eq_add.1 hlength) (by decide)

end Sys2Proof.Machine
end

section
/-! The avalanche diffuser (43_avalanche_diffuser.md), the commands: `fmix64` and the finalization as the spec writes them, what
HASH appends to the response queue, and HASHes in a row. -/

namespace Sys2Proof.Machine

/-! ### The functions as the spec writes them (43_avalanche_diffuser.md R140, R141) -/

theorem xorShift_eq (k : Word) : xorShift k = k ^^^ (k >>> 33) := rfl

theorem fmix64_zero : fmix64 0#64 = 0#64 := by decide

/-- Settles O26: the words between the steps of the definition, and that each step can be undone (`fmix64_bijective`). -/
theorem avalancheFunction : Obligations.AvalancheFunction :=
  ⟨fun k => ⟨xorShift k, xorShift k * constF1, xorShift (xorShift k * constF1),
      xorShift (xorShift k * constF1) * constF2, xorShift_eq k, rfl, xorShift_eq _, rfl, xorShift_eq _⟩,
    by decide, fmix64_zero, fmix64_bijective⟩

/-- Settles O27: the words between the steps are the pair `finalizeInject` gives, then the digest pair. -/
theorem finalizationSequence : Obligations.FinalizationSequence :=
  fun h1 h2 len => ⟨(finalizeInject h1 h2 len).1, (finalizeInject h1 h2 len).2, (finalize h1 h2 len).1,
    (finalize h1 h2 len).2, rfl, rfl, rfl, rfl, rfl⟩

/-- Equal words cancel when the length is XORed in, and `fmix64` keeps 0. -/
theorem finalize_self (h : Word) : finalize h h h = (0#64, 0#64) := by
  have hinject : finalizeInject h h h = (0#64, 0#64) := by simp [finalizeInject]
  simp [finalize, hinject, fmix64_zero]

/-! ### The command HASH (43_avalanche_diffuser.md R142) -/

/-- A full queue holds a HASH word off, however the instance treats other words. -/
theorem acceptsWord_of_full_of_hash {s : State} {w : CmdWord} (hw : headerOf w = 0xC0#8) (hfull : rspFull s = true) :
    acceptsWord s w = false := by
  simp [acceptsWord, heldByQueue, isHashWord, hw, hfull]

theorem step_of_held {s : State} {w : CmdWord} {ws : List CmdWord} {rest : List Move} (ht : CoreTurn s rest)
    (hc : s.cmds = w :: ws) (ha : acceptsWord s w = false) : step s = .next (withSched rest s) := by
  rw [step_of_coreTurn ht, coreStep_of_held (s := withSched rest s) hc ha]

/-- Settles O28: HASH is one append to the response queue (`exec_hash`), its word is the one the header 0xC0 selects, and a full
queue leaves that word offered (`acceptsWord_of_full_of_hash`). -/
theorem hashCommandEmitsTheDigest : Obligations.HashCommandEmitsTheDigest := by
  refine ⟨fun s => ?_, fun w s h => executeWord_of_command (decode_of_hash h) s, finalize_self,
    fun s w ws rest ht hc hw hfull => step_of_held ht hc (acceptsWord_of_full_of_hash hw hfull), by decide⟩
  obtain ⟨hfault, hinfo, hcfg, hcmds, htaken, hsched⟩ := exec_frame (exec_hash s)
  exact ⟨_, exec_hash s, rspPush_rspQ _ s, rspPush_h1 _ s, rspPush_h2 _ s, rspPush_length _ s, hfault, hinfo, hcfg, hcmds,
    htaken, hsched⟩

/-! ### HASHes in a row (43_avalanche_diffuser.md R143) -/

/-- An append to the queue that a later write of the queue replaces. -/
theorem rspPush_with_rspQ (d : RspWord) (ds : List RspWord) (s : State) :
    { rspPush d s with rspQ := ds } = { s with rspQ := ds } := rfl

/-- HASH leaves the triple it reads, so each HASH after it appends the same digest. -/
theorem runInstrs_replicate_hash (k : Nat) (s : State) : runInstrs (List.replicate k .hash) s =
    .next { s with rspQ := s.rspQ ++ List.replicate k (digestOf (hasherOf s)) } := by
  induction k generalizing s with
  | zero => simp [runInstrs]
  | succ k ih =>
    rw [List.replicate_succ, runInstrs_cons (exec_hash s), ih, rspPush_with_rspQ, hasherOf_rspPush, rspPush_rspQ,
      List.append_assoc, List.singleton_append, List.replicate_succ]

/-- A TAIL of no byte between two HASHes is as if it were not there. -/
theorem runInstrs_hash_tail_zero_hash (d : Payload) (s : State) :
    runInstrs [.hash, .tail 0#4 d, .hash] s = runInstrs (List.replicate 2 .hash) s := by
  rw [runInstrs_cons (exec_hash s), runInstrs_cons (exec_tail_zero d _), List.replicate_succ,
    runInstrs_cons (exec_hash s), List.replicate_one]

/-- Settles O29: by induction on the number of HASHes (`runInstrs_replicate_hash`); the tail between two of them drops out. -/
theorem hashIsRepeatable : Obligations.HashIsRepeatable :=
  ⟨runInstrs_replicate_hash, fun s d => (runInstrs_hash_tail_zero_hash d s).trans (runInstrs_replicate_hash 2 s)⟩

end Sys2Proof.Machine
end

section
/-! INCLUDE (44_include.md): a call cut at its first block, the bytes its commands carry, and calls as folds over the hasher
triple. -/

namespace Sys2Proof.Machine

/-! ### A call cut at its first block (44_include.md R160, R161) -/

/-- The bytes of a call, block by block: fewer than 16 bytes, or 16 bytes before the bytes of a shorter call. -/
theorem block_induction {P : List Byte → Prop} (tail : ∀ t, t.length < 16 → P t)
    (block : ∀ c b, c.length = 16 → P b → P (c ++ b)) (b : List Byte) : P b := by
  by_cases h : b.length < 16
  · exact tail b h
  · rw [← List.take_append_drop 16 b]
    exact block _ _ (List.length_take_of_le (by omega)) (block_induction tail block (b.drop 16))
termination_by b.length
decreasing_by rw [List.length_drop]; omega

/-- A read past the bytes put in front. -/
theorem memRead_append_right {c : List Byte} {m : Nat} (hc : c.length = m) (b : List Byte) (off n : Nat) :
    memRead (c ++ b) (off + m) n = memRead b off n := by
  rw [memRead, memRead, Nat.add_comm, ← List.drop_drop, List.drop_left' hc]

/-- A read of just the bytes put in front. -/
theorem memRead_append_left {c : List Byte} {n : Nat} (hc : c.length = n) (b : List Byte) : memRead (c ++ b) 0 n = c :=
  List.take_left' hc

theorem memRead_of_length {t : List Byte} {n : Nat} (h : t.length = n) : memRead t 0 n = t :=
  List.take_of_length_le h.le

theorem includeBlocks_append_right {c : List Byte} (hc : c.length = 16) (b : List Byte) (off q : Nat) :
    includeBlocks (c ++ b) (off + 16) q = includeBlocks b off q := by
  induction q generalizing off with
  | zero => rfl
  | succ q ih => rw [includeBlocks, includeBlocks, memRead_append_right hc, ih]

theorem length_block_append_div {c : List Byte} (hc : c.length = 16) (b : List Byte) :
    (c ++ b).length / 16 = b.length / 16 + 1 := by
  rw [List.length_append]; omega

theorem length_block_append_mod {c : List Byte} (hc : c.length = 16) (b : List Byte) :
    (c ++ b).length % 16 = b.length % 16 := by
  rw [List.length_append]; omega

theorem includeInstrs_of_lt {t : List Byte} (h : t.length < 16) : includeInstrs t = [tailOfBytes t] := by
  rw [includeInstrs, Nat.div_eq_of_lt h, memRead_of_length (Nat.mod_eq_of_lt h).symm]
  rfl

theorem includeInstrs_append {c : List Byte} (hc : c.length = 16) (b : List Byte) :
    includeInstrs (c ++ b) = blockOfBytes c :: includeInstrs b := by
  rw [includeInstrs, length_block_append_div hc, length_block_append_mod hc, includeBlocks, memRead_append_left hc,
    includeBlocks_append_right hc, Nat.mul_succ, memRead_append_right hc, List.cons_append, includeInstrs]

theorem includeHasher_of_lt (h : Hasher) {t : List Byte} (ht : t.length < 16) : includeHasher h t = tl h t := by
  rw [includeHasher, Nat.div_eq_of_lt ht, memRead_of_length (Nat.mod_eq_of_lt ht).symm]
  rfl

theorem includeHasher_append (h : Hasher) {c : List Byte} (hc : c.length = 16) (b : List Byte) :
    includeHasher h (c ++ b) = includeHasher (blk h c) b := by
  rw [includeHasher, length_block_append_div hc, length_block_append_mod hc, List.range_succ_eq_map, List.foldl_cons,
    Nat.mul_zero, memRead_append_left hc, List.foldl_map, Nat.mul_succ, memRead_append_right hc]
  simp only [Nat.mul_succ, memRead_append_right hc, includeHasher]

/-! ### The commands of a call compute `include` (44_include.md R161) -/

theorem exec_blockOfBytes (c : List Byte) (s : State) :
    exec (blockOfBytes c) s = .next (setHasher (blk (hasherOf s) c) s) := exec_block _ _ s

theorem exec_tailOfBytes (t : List Byte) (s : State) :
    exec (tailOfBytes t) s = .next (setHasher (tl (hasherOf s) t) s) := exec_tail _ _ s

theorem runInstrs_includeInstrs (b : List Byte) (s : State) :
    runInstrs (includeInstrs b) s = .next (setHasher (includeHasher (hasherOf s) b) s) := by
  induction b using block_induction generalizing s with
  | tail t ht =>
    rw [includeInstrs_of_lt ht, includeHasher_of_lt _ ht, runInstrs_singleton (exec_tailOfBytes t s), exec_tailOfBytes]
  | block c b hc ih =>
    rw [includeInstrs_append hc, includeHasher_append _ hc, runInstrs_cons (exec_blockOfBytes c s), ih, hasherOf_setHasher,
      setHasher_setHasher]

theorem runInstrs_append {is : List Instr} {s t : State} (h : runInstrs is s = .next t) (js : List Instr) :
    runInstrs (is ++ js) s = runInstrs js t := by
  induction is generalizing s with
  | nil => cases h; rfl
  | cons i is ih =>
    obtain ⟨u, hu⟩ := exec_completes i s
    rw [runInstrs_cons hu] at h
    rw [List.cons_append, runInstrs_cons hu, ih h]

theorem runInstrs_flatMap_includeInstrs (bs : List (List Byte)) (s : State) :
    runInstrs (bs.flatMap includeInstrs) s = .next (setHasher (bs.foldl includeHasher (hasherOf s)) s) := by
  induction bs generalizing s with
  | nil => rfl
  | cons b bs ih =>
    rw [List.flatMap_cons, runInstrs_append (runInstrs_includeInstrs b s), ih, hasherOf_setHasher, setHasher_setHasher,
      List.foldl_cons]

/-- Settles O34: a call is cut block by block (`runInstrs_includeInstrs`), a session call by call, and RESET first writes the
triple both start from. -/
theorem includeIsAFold : Obligations.IncludeIsAFold := by
  refine ⟨runInstrs_includeInstrs, fun seed bs s => ?_, fun seed b s => ?_⟩
  · rw [runInstrs_cons (exec_reset seed s), runInstrs_flatMap_includeInstrs, hasherOf_setHasher, setHasher_setHasher, session]
  · have hhash := exec_hash (setHasher (includeHasher (seedHasher s.cfg.seedExt seed) b) s)
    have hcall : runInstrs (.reset seed :: (includeInstrs b ++ [.hash])) s =
        runInstrs [.hash] (setHasher (includeHasher (seedHasher s.cfg.seedExt seed) b) s) := by
      rw [runInstrs_cons (exec_reset seed s), runInstrs_append (runInstrs_includeInstrs b _), hasherOf_setHasher,
        setHasher_setHasher]
    refine ⟨_, hcall.trans ((runInstrs_singleton hhash).trans hhash), ?_⟩
    rw [rspPush_rspQ, setHasher_rspQ, hasherOf_setHasher, hash128]

/-! ### Cutting a call in two (44_include.md R162, R163, R164) -/

theorem tailHasher_zero (d : Payload) (h : Hasher) : tailHasher 0#4 d h = h := by
  simp [tailHasher, tailK_zero, mixK1_zero, mixK2_zero, zext64]

theorem includeHasher_nil (h : Hasher) : includeHasher h [] = h := by
  rw [includeHasher_of_lt h (by decide)]
  exact tailHasher_zero _ h

/-- Settles O38: no bytes are one TAIL of no byte. -/
theorem emptyIncludeChangesNothing : Obligations.EmptyIncludeChangesNothing :=
  ⟨fun s => by rw [runInstrs_includeInstrs, includeHasher_nil, setHasher_hasherOf], includeHasher_nil⟩

theorem includeHasher_includeHasher {b : List Byte} (hb : 16 ∣ b.length) (h : Hasher) (c : List Byte) :
    includeHasher (includeHasher h b) c = includeHasher h (b ++ c) := by
  induction b using block_induction generalizing h with
  | tail t ht =>
    obtain rfl := List.eq_nil_of_length_eq_zero (Nat.eq_zero_of_dvd_of_lt hb ht)
    rw [includeHasher_nil, List.nil_append]
  | block d b hd ih =>
    rw [List.length_append, hd, Nat.dvd_add_self_left] at hb
    rw [includeHasher_append _ hd, List.append_assoc, includeHasher_append _ hd, ih hb]

/-- Settles O36: with no bytes left over, the first call's last TAIL is the one that changes nothing. -/
theorem chunkingAtBlockBoundaries : Obligations.ChunkingAtBlockBoundaries := by
  refine ⟨fun h b c hb => includeHasher_includeHasher hb h c, fun s b c hb => ?_⟩
  rw [runInstrs_append (runInstrs_includeInstrs b s), runInstrs_includeInstrs, runInstrs_includeInstrs, hasherOf_setHasher,
    setHasher_setHasher, includeHasher_includeHasher hb]

theorem length_includeHasher_includeHasher (h : Hasher) (b c : List Byte) :
    (includeHasher (includeHasher h b) c).length = (includeHasher h (b ++ c)).length := by
  rw [length_includeHasher, length_includeHasher, length_includeHasher, List.length_append, BitVec.ofNat_add,
    BitVec.add_assoc]

theorem seedHasher_one (ext : SeedExt) : seedHasher ext 1#32 = { h1 := 1#64, h2 := 1#64, length := 0#64 } := by
  rw [seedHasher, seedExt_one]

/-- Settles O37: every cut adds up to the same length (`length_includeHasher`); the example's seed is the same under either
extension. -/
theorem chunkingSensitivity : Obligations.ChunkingSensitivity := by
  refine ⟨length_includeHasher_includeHasher, fun ext => ?_⟩
  rw [hash128, session, seedHasher_one]
  decide

/-! ### The bytes the commands of a call carry (44_include.md R160) -/

theorem eq_of_leNat_eq {as bs : List Byte} (hlen : as.length = bs.length) (h : leNat as = leNat bs) : as = bs := by
  rw [leNat_eq_ofDigits, leNat_eq_ofDigits] at h
  exact List.map_injective_iff.2 (fun _ _ => BitVec.eq_of_toNat_eq) <|
    Nat.ofDigits_inj_of_len_eq (by decide) (by simpa using hlen) (toNat_lt_of_mem_bytes as) (toNat_lt_of_mem_bytes bs) h

/-- The lanes of a payload made of at most 16 bytes are those bytes, in order. -/
theorem take_lanesOf_payloadOf {t : List Byte} (ht : t.length ≤ 16) : (lanesOf (payloadOf t)).take t.length = t := by
  apply eq_of_leNat_eq (by simpa using ht)
  have hpow : 2 ^ 128 = 256 ^ 16 := by decide
  rw [← leNat_mod, leNat_lanesOf, payloadOf_toNat, hpow, leNat_mod, List.take_of_length_le ht, leNat_mod, List.take_length]

theorem lanesOf_payloadOf {c : List Byte} (hc : c.length = 16) : lanesOf (payloadOf c) = c := by
  have htake := take_lanesOf_payloadOf hc.le
  rwa [List.take_of_length_le (by rw [length_lanesOf, hc])] at htake

theorem toNat_ofNat_length {t : List Byte} (ht : t.length < 16) : (BitVec.ofNat 4 t.length).toNat = t.length :=
  (BitVec.toNat_ofNat _ _).trans (Nat.mod_eq_of_lt ht)

theorem inputBytes_blockOfBytes {c : List Byte} (hc : c.length = 16) : inputBytes (blockOfBytes c) = c := by
  rw [blockOfBytes, inputBytes, cat64_halves, lanesOf_payloadOf hc]

theorem inputBytes_tailOfBytes {t : List Byte} (ht : t.length < 16) : inputBytes (tailOfBytes t) = t := by
  rw [tailOfBytes, inputBytes, toNat_ofNat_length ht, take_lanesOf_payloadOf ht.le]

theorem wellFormed_tailOfBytes {t : List Byte} (ht : t.length < 16) : (tailOfBytes t).WellFormed := by
  apply decide_eq_true
  rw [toNat_ofNat_length ht, maskLanes_eq_payloadOf_take, take_lanesOf_payloadOf ht.le]

theorem flatMap_inputBytes_includeInstrs (b : List Byte) : (includeInstrs b).flatMap inputBytes = b := by
  induction b using block_induction with
  | tail t ht => rw [includeInstrs_of_lt ht, List.flatMap_singleton, inputBytes_tailOfBytes ht]
  | block c b hc ih => rw [includeInstrs_append hc, List.flatMap_cons, inputBytes_blockOfBytes hc, ih]

theorem wellFormed_includeInstrs (b : List Byte) : ∀ i ∈ includeInstrs b, i.WellFormed := by
  induction b using block_induction with
  | tail t ht => simpa [includeInstrs_of_lt ht] using wellFormed_tailOfBytes ht
  | block c b hc ih =>
    rw [includeInstrs_append hc, List.forall_mem_cons]
    exact ⟨rfl, ih⟩

theorem length_includeBlocks (buf : List Byte) (off q : Nat) : (includeBlocks buf off q).length = q := by
  induction q generalizing off with
  | zero => rfl
  | succ q ih => rw [includeBlocks, List.length_cons, ih]

theorem block_of_mem_includeBlocks {buf : List Byte} {off q : Nat} :
    ∀ i ∈ includeBlocks buf off q, ∃ k1 k2, i = .block k1 k2 := by
  induction q generalizing off with
  | zero => simp [includeBlocks]
  | succ q ih => exact List.forall_mem_cons.2 ⟨⟨_, _, rfl⟩, ih⟩

theorem isCanonical_of_mem_includeWords {b : List Byte} {w : CmdWord} (h : w ∈ includeWords b) : isCanonical w = true := by
  obtain ⟨i, -, rfl⟩ := List.mem_map.1 h
  exact isCanonical_encode i

/-- Settles O33: each byte goes to the command whose lanes it is read back from, block by block
(`flatMap_inputBytes_includeInstrs`); the words are encoded commands, and running them writes the triple alone. -/
theorem includeExpansion : Obligations.IncludeExpansion := by
  refine ⟨fun b => ⟨includeBlocks b 0 (b.length / 16), _, _, rfl, length_includeBlocks _ _ _, block_of_mem_includeBlocks,
    ?_, flatMap_inputBytes_includeInstrs b, wellFormed_includeInstrs b⟩, fun b w => isCanonical_of_mem_includeWords,
    fun b s => ⟨_, runInstrs_includeInstrs b s, setHasher_fault _ s, setHasher_faultInfo _ s, setHasher_rspQ _ s⟩,
    includeInstrs_of_lt (by decide), by decide⟩
  have htail := length_memRead_tail b
  rw [toNat_ofNat_length (by omega), htail]

end Sys2Proof.Machine
end

section
/-! The digest views (45_digest_views.md): the bytes of a digest as slices of the response word `RSP`, the response word as a
number and as a pair of fields, and the characters of the hex string by the byte they encode. -/

namespace Sys2Proof.Machine

/-! ### The response word (45_digest_views.md R182, R185) -/

theorem cat64_inj {a b c d : Word} : cat64 a b = cat64 c d ↔ a = c ∧ b = d := by
  refine ⟨fun e => ⟨?_, ?_⟩, fun ⟨hac, hbd⟩ => by rw [hac, hbd]⟩
  · simpa using congrArg highHalf e
  · simpa using congrArg lowHalf e

theorem toNat_cat64 (a b : Word) : (cat64 a b).toNat = a.toNat * 2 ^ 64 + b.toNat := by
  rw [cat64, BitVec.toNat_append, ← Nat.shiftLeft_add_eq_or_of_lt b.isLt, Nat.shiftLeft_eq]

theorem toBigInteger_eq_toNat_cat64 (h1 h2 : Word) : toBigInteger h1 h2 = (cat64 h1 h2).toNat := (toNat_cat64 h1 h2).symm

/-! ### The bytes as slices (45_digest_views.md R180, R181) -/

@[simp] theorem length_bytesBE (v : Word) : (bytesBE v).length = 8 := by simp [bytesBE]

theorem getElem?_bytesBE {j : Nat} (h : j < 8) (v : Word) : (bytesBE v)[j]? = some (v.extractLsb' (56 - 8 * j) 8) := by
  simp [bytesBE, h]

@[simp] theorem length_toBigEndianBytes (h1 h2 : Word) : (toBigEndianBytes h1 h2).length = 16 := by
  simp [toBigEndianBytes]

theorem getElem?_toBigEndianBytes_of_lt {j : Nat} (h : j < 8) (h1 h2 : Word) :
    (toBigEndianBytes h1 h2)[j]? = some (h1.extractLsb' (56 - 8 * j) 8) := by
  rw [toBigEndianBytes, List.getElem?_append_left (by simpa using h), getElem?_bytesBE h]

theorem getElem?_toBigEndianBytes_add {j : Nat} (h : j < 8) (h1 h2 : Word) :
    (toBigEndianBytes h1 h2)[8 + j]? = some (h2.extractLsb' (56 - 8 * j) 8) := by
  rw [toBigEndianBytes, List.getElem?_append_right (by simp), length_bytesBE, Nat.add_sub_cancel_left, getElem?_bytesBE h]

/-- The big-endian bytes are those of the response word, from the most significant down: the first eight from the high field,
the others from the low one. -/
theorem getElem?_toBigEndianBytes {j : Nat} (h : j < 16) (h1 h2 : Word) :
    (toBigEndianBytes h1 h2)[j]? = some ((cat64 h1 h2).extractLsb' (120 - 8 * j) 8) := by
  rw [cat64]
  obtain hj | hj := Nat.lt_or_ge j 8
  · have hstart : 120 - 8 * j - 64 = 56 - 8 * j := by omega
    rw [getElem?_toBigEndianBytes_of_lt hj, BitVec.extractLsb'_append_eq_of_le (by omega), hstart]
  · obtain ⟨k, rfl⟩ := Nat.exists_eq_add_of_le hj
    have hstart : 120 - 8 * (8 + k) = 56 - 8 * k := by omega
    rw [getElem?_toBigEndianBytes_add (by omega), hstart, BitVec.extractLsb'_append_eq_of_add_le (by omega)]

theorem getElem?_toLittleEndianBytes {j : Nat} (h : j < 16) (h1 h2 : Word) :
    (toLittleEndianBytes h1 h2)[j]? = (toBigEndianBytes h1 h2)[15 - j]? := by
  rw [toLittleEndianBytes, List.getElem?_reverse (by simpa using h), length_toBigEndianBytes, Nat.sub_right_comm]

/-- The little-endian bytes are the lanes of the response word. -/
theorem getElem?_toLittleEndianBytes_eq_lane {j : Nat} (h : j < 16) (h1 h2 : Word) :
    (toLittleEndianBytes h1 h2)[j]? = some (lane (cat64 h1 h2) j) := by
  have hstart : 120 - 8 * (15 - j) = 8 * j := by omega
  rw [getElem?_toLittleEndianBytes h, getElem?_toBigEndianBytes (by omega), hstart, lane]

/-! ### The hex string (45_digest_views.md R183) -/

theorem getElem?_hexDigits {v : Nat} (h : v < 16) : hexDigits[v]? = some (hexDigit v) := by
  rw [hexDigit, List.getD_eq_getElem _ _ h, List.getElem?_eq_getElem h]

theorem length_flatMap_hexOfByte (bs : List Byte) : (bs.flatMap hexOfByte).length = 2 * bs.length := by
  simp [List.length_flatMap, hexOfByte, Nat.mul_comm]

theorem getElem?_flatMap_hexOfByte {bs : List Byte} {j : Nat} {b : Byte} (h : bs[j]? = some b) :
    (bs.flatMap hexOfByte)[2 * j]? = some (hexDigit (b.toNat / 16)) ∧
      (bs.flatMap hexOfByte)[2 * j + 1]? = some (hexDigit (b.toNat % 16)) := by
  induction bs generalizing j with
  | nil => simp at h
  | cons c bs ih =>
    cases j with
    | zero =>
      obtain rfl : c = b := by simpa using h
      exact ⟨rfl, rfl⟩
    | succ j => exact ih (by simpa using h)

/-! ### The statements -/

/-- Settles O50: each byte is a slice of its field and so of the response word (`getElem?_toBigEndianBytes`), whose value as a
number is the integer. -/
theorem digestBytesAndInteger : Obligations.DigestBytesAndInteger := by
  refine ⟨fun h1 h2 => ⟨length_toBigEndianBytes h1 h2,
    fun j hj => ⟨getElem?_toBigEndianBytes_of_lt hj h1 h2, getElem?_toBigEndianBytes_add hj h1 h2⟩,
    fun j hj => getElem?_toBigEndianBytes hj h1 h2,
    fun j hj => ⟨getElem?_toLittleEndianBytes hj h1 h2, getElem?_toLittleEndianBytes_eq_lane hj h1 h2⟩,
    rfl, toBigInteger_eq_toNat_cat64 h1 h2, ?_⟩, by decide, by decide, by decide⟩
  rw [toBigInteger_eq_toNat_cat64]
  exact (cat64 h1 h2).isLt

/-- Settles O51: every byte gives two characters (`getElem?_flatMap_hexOfByte`), and a byte has two digits below 16. -/
theorem digestHexString : Obligations.DigestHexString := by
  refine ⟨fun h1 h2 => ⟨?_, rfl, fun j b hb => ?_, rfl⟩, by decide, by decide⟩
  · rw [hexChars, length_flatMap_hexOfByte, length_toBigEndianBytes]
  · have hhigh : b.toNat / 16 < 16 := Nat.div_lt_of_lt_mul b.isLt
    have hlow : b.toNat % 16 < 16 := Nat.mod_lt _ (by decide)
    rw [getElem?_hexDigits hhigh, getElem?_hexDigits hlow]
    exact getElem?_flatMap_hexOfByte hb

/-- Settles O52: the fields are the halves of the response word (`cat64_inj`). -/
theorem digestEquality : Obligations.DigestEquality := fun _ _ _ _ => cat64_inj

end Sys2Proof.Machine
end

section
/-! The fault (60_exceptions.md): the step that takes it, what a step from the fault state can be, and that only hardware reset
leads out. -/

namespace Sys2Proof.Machine

/-! ### Taking the fault (60_exceptions.md R190) -/

theorem step_of_illegal {s : State} {rest : List Move} {w : CmdWord} {ws : List CmdWord} (ht : CoreTurn s rest)
    (hc : s.cmds = w :: ws) (ha : acceptsWord s w = true) (hw : ¬ ListedHeader (headerOf w)) :
    step s = .next (raiseIllegalCommand (headerOf w) (withCmds ws (withSched rest s))) := by
  rw [step_of_coreTurn ht, coreStep_of_accepts (s := withSched rest s) hc ha, executeWord_of_illegal hw]

/-- Of the cases of a step the illegal header alone sets `fault`: the others leave it as it was or clear it. -/
theorem illegal_of_step_sets_fault {s t : State} (h : step s = .next t) (hs : s.fault = false) (ht : t.fault = true) :
    ∃ w ws, s.cmds = w :: ws ∧ ¬ ListedHeader (headerOf w) ∧ t.faultInfo = headerOf w := by
  have unchanged : t.fault ≠ s.fault := by simp [hs, ht]
  cases step_cases h with
  | idle _ _ e => exact absurd (e ▸ withSched_fault _ s) unchanged
  | command i w ws rest _ _ _ _ _ e =>
    obtain ⟨hfault, -⟩ := exec_frame e
    exact absurd hfault unchanged
  | illegal w ws rest _ hc _ hl _ _ e => exact ⟨w, ws, hc, by simp [listedHeader_iff, hl], by rw [e]; rfl⟩
  | issue w rest _ _ e => exact absurd (e ▸ issueWord_fault w (withSched rest s)) unchanged
  | take rest _ _ e => exact absurd (e ▸ takeDigest_fault (withSched rest s)) unchanged
  | hardReset rest _ _ e => simp [e] at ht

/-- The cause number is the level of the `FAULT` output. -/
theorem faultCause_eq_portFault (s : State) : faultCause s = (portFault s).toNat := by
  unfold faultCause portFault
  cases s.fault with
  | false => rfl
  | true => rfl

/-- Settles O40: the accepted word's step is `raiseIllegalCommand` on the state with the word and the event used up
(`step_of_illegal`), and no other case of a step sets `fault`. -/
theorem illegalHeaderTakesTheFault : Obligations.IllegalHeaderTakesTheFault := by
  refine ⟨fun s rest w ws ht hc ha hw => ?_, fun s t h hs ht => illegal_of_step_sets_fault h hs ht,
    fun s => ⟨faultCause_eq_portFault s, fun h => by simp [faultCause, h], fun h => by simp [faultCause, h]⟩⟩
  exact ⟨_, step_of_illegal ht hc ha hw, rfl, rfl, rfl, rfl, rfl, rfl, rfl, rfl, rfl, rfl⟩

/-! ### In the fault state (60_exceptions.md R193) -/

/-- From the fault state a step that is no hardware reset uses up an event, and the host alone can do something with it. -/
theorem step_of_fault {s : State} (hf : s.fault = true) (hm : s.sched.head? ≠ some .hardReset) :
    step s = .next (withSched s.sched.tail s) ∨
      (∃ w rest, s.sched = .issue w :: rest ∧ step s = .next (issueWord w (withSched rest s))) ∨
      ∃ rest, s.sched = .take :: rest ∧ step s = .next (takeDigest (withSched rest s)) := by
  cases hs : s.sched with
  | nil => exact .inl (step_of_fault_coreTurn hf (.inl ⟨hs, rfl⟩))
  | cons m rest =>
    have hstep := step_of_scheduled hs
    cases m with
    | accept => exact .inl (step_of_fault_coreTurn hf (.inr hs))
    | issue w => exact .inr (.inl ⟨w, rest, rfl, hstep⟩)
    | take => exact .inr (.inr ⟨rest, rfl, hstep⟩)
    | hardReset => simp [hs] at hm
    | observe => exact .inl hstep
    | wait => exact .inl hstep

theorem portCmdReady_of_fault {s : State} (hf : s.fault = true) : portCmdReady s = 0#1 :=
  portCmdReady_eq_zero.2 (by simp [canAccept_of_fault hf])

/-- Settles O41: the cases of `step_of_fault`, the last one split by whether a digest is queued. -/
theorem faultStateAcceptsNoWord : Obligations.FaultStateAcceptsNoWord := by
  refine fun s hf hm => ⟨portCmdReady_of_fault hf, by simp [portFault, hf], rfl, ?_⟩
  obtain h | ⟨w, rest, hs, h⟩ | ⟨rest, hs, h⟩ := step_of_fault hf hm
  · exact ⟨_, h, hf, rfl, rfl, rfl, .inl rfl, .inl ⟨rfl, rfl⟩⟩
  · exact ⟨_, h, hf, rfl, rfl, rfl, .inr ⟨w, by simp [hs], rfl⟩, .inl ⟨rfl, rfl⟩⟩
  · refine ⟨_, h, by simp [hf], by simp, by simp, by simp, .inl (by simp), ?_⟩
    obtain ⟨-, e⟩ | ⟨d, ds, hq, e⟩ := takeDigest_cases (withSched rest s)
    · exact .inl (by simp [e])
    · exact .inr ⟨d, by simp [hs], by rw [e]; exact hq, by rw [e]; rfl⟩

/-! ### No return but hardware reset (60_exceptions.md R194) -/

theorem fault_kept_by_step {s t : State} (h : step s = .next t) (hf : s.fault = true)
    (hm : s.sched.head? ≠ some .hardReset) : t.fault = true ∧ t.faultInfo = s.faultInfo ∧ hasherOf t = hasherOf s := by
  obtain ⟨-, -, -, u, hu, hfault, hinfo, hhasher, -⟩ := faultStateAcceptsNoWord s hf hm
  cases hu.symm.trans h
  exact ⟨hfault, hinfo, hhasher⟩

theorem fault_kept_along_run {k : Nat} {s t : State} (hf : s.fault = true) (hm : ∀ m ∈ s.sched, m ≠ .hardReset)
    (h : Host.Core.run Sys2Proof.core k s = .next t) :
    t.fault = true ∧ t.faultInfo = s.faultInfo ∧ hasherOf t = hasherOf s := by
  induction k generalizing s with
  | zero => cases h; exact ⟨hf, rfl, rfl⟩
  | succ k ih =>
    obtain ⟨u, hu, h⟩ := run_succ_next h
    have hhead : s.sched.head? ≠ some .hardReset := fun e => hm _ (List.mem_of_head? e) rfl
    obtain ⟨hfu, hinfo, hhasher⟩ := fault_kept_by_step hu hf hhead
    obtain ⟨hft, hinfo', hhasher'⟩ := ih hfu (fun m hmem => hm m (mem_sched_of_step hu hmem)) h
    exact ⟨hft, hinfo'.trans hinfo, hhasher'.trans hhasher⟩

/-- Settles O42: every step from the fault state that is no hardware reset keeps the record and the triple, so every run of such
steps does; hardware reset writes both. -/
theorem noReturnFromTheFault : Obligations.NoReturnFromTheFault :=
  ⟨fun _ _ _ hf hm h => fault_kept_along_run hf hm h, fun _ _ hs => ⟨_, step_of_hardReset hs, rfl, rfl, rfl⟩⟩

end Sys2Proof.Machine
end

section
/-! Hardware reset and back-pressure (70_reset_and_hazards.md): what a reset forgets, that it alone leaves the fault state, and
how a full queue holds a HASH until the host takes a digest. -/

namespace Sys2Proof.Machine

/-! ### Hardware reset (70_reset_and_hazards.md R220) -/

/-- What hardware reset leaves is a function of the parameters and the host's side alone. -/
theorem hardwareReset_congr {s u : State} (hcfg : s.cfg = u.cfg) (hcmds : s.cmds = u.cmds) (htaken : s.taken = u.taken)
    (hsched : s.sched = u.sched) : hardwareReset s = hardwareReset u := by
  simp only [hardwareReset, hcfg, hcmds, htaken, hsched]

/-- Settles O2: the step is `hardwareReset`, which reads nothing of the block's state (`hardwareReset_congr`), and every other
step from the fault state keeps the fault (`fault_kept_by_step`). -/
theorem hardwareResetForgetsEverything : Obligations.HardwareResetForgetsEverything := by
  refine ⟨fun s rest hs => ?_, fun s u hcfg hcmds htaken hsched hm => ?_, fun s t h hs ht => ?_⟩
  · exact ⟨_, step_of_hardReset hs, rfl, rfl, rfl, rfl, rfl, rfl, acceptedWord_of_hostMove hs (by simp)⟩
  · obtain ⟨rest, hrest⟩ := List.head?_eq_some_iff.1 hm
    refine ⟨_, step_of_hardReset hrest, ?_⟩
    rw [step_of_hardReset (hsched ▸ hrest)]
    exact congrArg _ (hardwareReset_congr hcfg.symm hcmds.symm htaken.symm rfl)
  · by_contra hm
    obtain ⟨hkept, -⟩ := fault_kept_by_step h hs hm
    simp [hkept] at ht

/-! ### Back-pressure (70_reset_and_hazards.md R228) -/

theorem rspFull_of_unbounded {s : State} (h : s.cfg.rspDepth = .unbounded) : rspFull s = false := by
  simp [rspFull, h]

theorem rspFull_of_room {s : State} {n : Nat} (h : s.cfg.rspDepth = .slots n) (hroom : s.rspQ.length < n) :
    rspFull s = false := by
  simp [rspFull, h, hroom]

theorem acceptsWord_of_not_full {s : State} {w : CmdWord} (hf : s.fault = false) (hfull : rspFull s = false) :
    acceptsWord s w = true := by
  simp [acceptsWord, heldByQueue, hf, hfull]

/-- On the core's turn a HASH that the queue has room for appends its digest. -/
theorem step_of_hash {s : State} {rest : List Move} {w : CmdWord} {ws : List CmdWord} (ht : CoreTurn s rest)
    (hc : s.cmds = w :: ws) (hw : headerOf w = 0xC0#8) (hf : s.fault = false) (hfull : rspFull s = false) :
    step s = .next { s with rspQ := s.rspQ ++ [digestOf (hasherOf s)], cmds := ws, sched := rest } := by
  rw [step_of_coreTurn ht, coreStep_of_accepts (s := withSched rest s) hc (acceptsWord_of_not_full hf hfull),
    executeWord_of_command (decode_of_hash hw), exec_hash]
  rfl

/-- A host that does nothing leaves the state with a held word as it is, for ever. -/
theorem run_of_held {s : State} {w : CmdWord} {ws : List CmdWord} (hs : s.sched = []) (hc : s.cmds = w :: ws)
    (ha : acceptsWord s w = false) (k : Nat) : Host.Core.run Sys2Proof.core k s = .next s := by
  have hstep : step s = .next s := by
    rw [step_of_unscheduled hs, coreStep_of_held hc ha]
  induction k with
  | zero => exact run_zero s
  | succ k ih => rw [run_succ_of_step hstep, ih]

/-- Taking a digest from a full queue makes the room for the HASH that it held. -/
theorem run_take_hash {s : State} {rest : List Move} {n : Nat} {w : CmdWord} {ws : List CmdWord} {d : RspWord}
    {ds : List RspWord} (hf : s.fault = false) (hs : s.sched = .take :: .accept :: rest) (hc : s.cmds = w :: ws)
    (hw : headerOf w = 0xC0#8) (hn : s.cfg.rspDepth = .slots n) (hq : s.rspQ = d :: ds) (hlen : s.rspQ.length = n) :
    Host.Core.run Sys2Proof.core 2 s =
      .next { s with rspQ := ds ++ [digestOf (hasherOf s)], taken := s.taken ++ [d], cmds := ws, sched := rest } := by
  have hroom : ds.length < n := by simp [← hlen, hq]
  have htake := step_of_take hs hq
  have hhash := step_of_hash (s := { s with rspQ := ds, taken := s.taken ++ [d], sched := .accept :: rest })
    (.inr rfl) hc hw hf (rspFull_of_room hn hroom)
  exact (run_succ_of_step htake).trans (run_succ_of_step hhash)

/-- Settles O32: a full queue does not accept a HASH (`acceptsWord_of_full_of_hash`), so each of the core's turns leaves it
offered until a take makes room (`run_take_hash`); an unbounded queue is never full. -/
theorem backPressure : Obligations.BackPressure := by
  refine ⟨fun s rest w ws ht hc hw hfull => ?_, fun s rest n w ws d ds => run_take_hash,
    fun k s w ws hs hc hw hfull => ?_, fun s w h => ?_⟩
  · exact step_of_held ht hc (acceptsWord_of_full_of_hash hw hfull)
  · exact run_of_held hs hc (acceptsWord_of_full_of_hash hw hfull) k
  · rw [heldByQueue, rspFull_of_unbounded h, Bool.false_and]

end Sys2Proof.Machine
end

section
/-! Single steps: every one goes on, what each kind of step does, and the invariant on the parameters, the fault record and the
queue (10_state.md R26, R27). -/

namespace Sys2Proof.Machine

/-! ### Every step goes on (60_exceptions.md R191) -/

theorem executeWord_completes (w : CmdWord) (s : State) : ∃ t, executeWord w s = .next t := by
  obtain ⟨i, -, h⟩ | ⟨-, -, h⟩ := executeWord_cases w s
  · rw [h]
    exact exec_completes i s
  · exact ⟨_, h⟩

theorem coreStep_completes (s : State) : ∃ t, coreStep s = .next t := by
  obtain h | ⟨w, ws, -, -, h⟩ := coreStep_cases s
  · exact ⟨_, h⟩
  · rw [h]
    exact executeWord_completes w _

theorem runMove_completes (m : Move) (s : State) : ∃ t, runMove m s = .next t := by
  cases m with
  | accept => exact coreStep_completes s
  | _ => exact ⟨_, rfl⟩

theorem step_completes (s : State) : ∃ t, step s = .next t := by
  cases hs : s.sched with
  | nil =>
    rw [step_of_unscheduled hs]
    exact coreStep_completes s
  | cons m rest =>
    rw [step_of_scheduled hs]
    exact runMove_completes m _

/-- Settles O43: a command writes the triple or the queue (`exec_frame`), and no event of a step ends otherwise than in a next
state (`step_completes`). -/
theorem commandsNeverFault : Obligations.CommandsNeverFault := by
  refine ⟨fun i s => ?_, step_completes⟩
  obtain ⟨t, ht⟩ := exec_completes i s
  obtain ⟨hfault, hinfo, -⟩ := exec_frame ht
  exact ⟨t, ht, hfault, hinfo⟩

/-! ### The core's turn and the host's moves (30_encoding.md R65, 70_reset_and_hazards.md R232) -/

theorem step_of_accepts {s : State} {rest : List Move} {w : CmdWord} {ws : List CmdWord} (ht : CoreTurn s rest)
    (hc : s.cmds = w :: ws) (ha : acceptsWord s w = true) :
    step s = executeWord w (withCmds ws (withSched rest s)) := by
  rw [step_of_coreTurn ht, coreStep_of_accepts (s := withSched rest s) hc ha]

theorem step_of_command {s : State} {rest : List Move} {w : CmdWord} {ws : List CmdWord} {i : Instr} (ht : CoreTurn s rest)
    (hc : s.cmds = w :: ws) (ha : acceptsWord s w = true) (hd : decode w = .command i) :
    step s = exec i (withCmds ws (withSched rest s)) := by
  rw [step_of_accepts ht hc ha, executeWord_of_command hd]

/-- Settles O3: the core's turn executes the accepted word, and the word is the command (`step_of_command`). -/
theorem stepRunsTheDecodedCommand : Obligations.StepRunsTheDecodedCommand :=
  fun _ _ _ _ _ ht hc ha hd => step_of_command ht hc ha hd

/-- Settles O49: a listed event is the step (`step_of_scheduled`); with no event and no word the core is idle. -/
theorem hostMoves : Obligations.HostMoves :=
  ⟨fun _ _ _ hs => step_of_scheduled hs, fun _ _ hs => step_of_scheduled hs, fun _ _ hs => step_of_hardReset hs,
    fun _ hs hc => (step_of_unscheduled hs).trans (coreStep_of_idle hc)⟩

/-- Settles O7: each word's header and payload are read off by the decoder's tests. -/
theorem specWordsDecode : Obligations.SpecWordsDecode := by
  refine ⟨?_, ?_, ?_, ?_, ?_, ?_⟩ <;> decide

/-! ### The invariant (10_state.md R26, R27) -/

/-- Settles O48: no case of a step writes the parameters. -/
theorem parametersNeverChange : Obligations.ParametersNeverChange := by
  intro s t h
  cases step_cases h with
  | idle _ _ e => rw [e, withSched_cfg]
  | command i w ws rest _ _ _ _ _ e =>
    obtain ⟨-, -, hcfg, -⟩ := exec_frame e
    exact hcfg
  | illegal w ws rest _ _ _ _ _ _ e => rw [e]; rfl
  | issue w rest _ _ e => rw [e]; rfl
  | take rest _ _ e => rw [e, takeDigest_cfg, withSched_cfg]
  | hardReset rest _ _ e => rw [e]; rfl

theorem faultRecordOk_congr {s t : State} (hfault : t.fault = s.fault) (hinfo : t.faultInfo = s.faultInfo) :
    faultRecordOk t = faultRecordOk s := by
  rw [faultRecordOk, faultRecordOk, hfault, hinfo]

theorem faultRecordOk_raiseIllegalCommand {hdr : BitVec 8} (h : legalHeader hdr = false) (s : State) :
    faultRecordOk (raiseIllegalCommand hdr s) = true := by
  simp [faultRecordOk, h]

theorem faultRecordOk_hardwareReset (s : State) : faultRecordOk (hardwareReset s) = true := rfl

theorem faultRecordOk_of_step {s t : State} (h : step s = .next t) (hs : faultRecordOk s = true) :
    faultRecordOk t = true := by
  cases step_cases h with
  | idle _ _ e => rw [e]; exact hs
  | command i w ws rest _ _ _ _ _ e =>
    obtain ⟨hfault, hinfo, -⟩ := exec_frame e
    rw [faultRecordOk_congr hfault hinfo]
    exact hs
  | illegal w ws rest _ _ _ hl _ _ e => rw [e, faultRecordOk_raiseIllegalCommand hl]
  | issue w rest _ _ e => rw [e]; exact hs
  | take rest _ _ e =>
    rw [e, faultRecordOk_congr (takeDigest_fault _) (takeDigest_faultInfo _)]
    exact hs
  | hardReset rest _ _ e => rw [e, faultRecordOk_hardwareReset]

theorem queueWithinDepth_iff {s : State} :
    queueWithinDepth s = true ↔ ∀ n, s.cfg.rspDepth = .slots n → s.rspQ.length ≤ n := by
  unfold queueWithinDepth
  cases s.cfg.rspDepth with
  | unbounded => simp
  | slots n => simp

theorem rspFull_eq_false_iff {s : State} :
    rspFull s = false ↔ ∀ n, s.cfg.rspDepth = .slots n → s.rspQ.length < n := by
  unfold rspFull
  cases s.cfg.rspDepth with
  | unbounded => simp
  | slots n => simp

/-- A queue that has grown no longer is still within the capacity. -/
theorem queueWithinDepth_of_length_le {s t : State} (hcfg : t.cfg = s.cfg) (hlen : t.rspQ.length ≤ s.rspQ.length)
    (hs : queueWithinDepth s = true) : queueWithinDepth t = true := by
  rw [queueWithinDepth_iff] at hs ⊢
  intro n hn
  exact hlen.trans (hs n (hcfg ▸ hn))

theorem queueWithinDepth_rspPush {s : State} (h : rspFull s = false) (d : RspWord) :
    queueWithinDepth (rspPush d s) = true := by
  rw [queueWithinDepth_iff]
  intro n hn
  rw [rspPush_rspQ, List.length_append]
  exact rspFull_eq_false_iff.1 h n hn

theorem length_rspQ_takeDigest_le (s : State) : (takeDigest s).rspQ.length ≤ s.rspQ.length := by
  obtain ⟨-, e⟩ | ⟨d, ds, hq, e⟩ := takeDigest_cases s
  · rw [e]
  · simp [e, hq]

/-- A HASH is accepted only while the queue has room. -/
theorem rspFull_of_accepted_hash {s : State} {w : CmdWord} (ha : acceptsWord s w = true) (hd : decode w = .command .hash) :
    rspFull s = false := by
  by_contra hfull
  have hheld := acceptsWord_of_full_of_hash (header_of_decode hd).symm (Bool.eq_true_of_not_eq_false hfull)
  simp [hheld] at ha

theorem queueWithinDepth_of_step {s t : State} (h : step s = .next t) (hs : queueWithinDepth s = true) :
    queueWithinDepth t = true := by
  have hcfg := parametersNeverChange s t h
  cases step_cases h with
  | idle _ _ e => rw [e]; exact hs
  | command i w ws rest _ _ ha hd _ e =>
    obtain ⟨-, h, he⟩ | ⟨rfl, he⟩ := exec_cases i (withCmds ws (withSched rest s))
    · cases he.symm.trans e
      exact hs
    · cases he.symm.trans e
      exact queueWithinDepth_rspPush (s := withCmds ws (withSched rest s)) (rspFull_of_accepted_hash ha hd) _
  | illegal w ws rest _ _ _ _ _ _ e => rw [e]; exact hs
  | issue w rest _ _ e => rw [e]; exact hs
  | take rest _ _ e =>
    subst e
    exact queueWithinDepth_of_length_le hcfg (length_rspQ_takeDigest_le (withSched rest s)) hs
  | hardReset rest _ _ e =>
    subst e
    exact queueWithinDepth_of_length_le hcfg (Nat.zero_le _) hs

theorem inv_iff {s : State} : s.Inv ↔ s.cfg.wf = true ∧ faultRecordOk s = true ∧ queueWithinDepth s = true := by
  rw [State.Inv, State.inv, Bool.and_eq_true, Bool.and_eq_true, and_assoc]

/-- Settles O46: the three parts one by one: no step writes the parameters, the one step that sets `fault` records an illegal
header (`faultRecordOk_of_step`), and the one that lengthens the queue is a HASH accepted with room
(`queueWithinDepth_of_step`). -/
theorem stepKeepsTheInvariant : Obligations.StepKeepsTheInvariant := by
  intro s t hinv h
  obtain ⟨hwf, hrecord, hqueue⟩ := inv_iff.1 hinv
  rw [← parametersNeverChange s t h] at hwf
  exact inv_iff.2 ⟨hwf, faultRecordOk_of_step h hrecord, queueWithinDepth_of_step h hqueue⟩

/-- Settles O47: the default parameters, no fault and an empty queue. -/
theorem invariantHoldsAtReset : Obligations.InvariantHoldsAtReset := inv_iff.2 ⟨rfl, rfl, rfl⟩

end Sys2Proof.Machine
end

section
/-! The hasher triple hidden from the host (10_state.md R33): a step with no HASH to come does the same beside any two triples. -/

namespace Sys2Proof.Machine

/-! ### Words still to come -/

/-- A word offered after a step was offered before it, or the step's event offered it. -/
theorem mem_cmds_of_step {s t : State} (h : step s = .next t) {w : CmdWord} (hw : w ∈ t.cmds) :
    w ∈ s.cmds ∨ Move.issue w ∈ s.sched := by
  cases step_cases h with
  | idle _ _ e => rw [e] at hw; exact .inl hw
  | command i v ws rest _ hc _ _ _ e =>
    obtain ⟨-, -, -, hcmds, -⟩ := exec_frame e
    rw [hcmds, withCmds_cmds] at hw
    exact .inl (hc ▸ List.mem_cons_of_mem v hw)
  | illegal v ws rest _ hc _ _ _ _ e =>
    rw [e, raiseIllegalCommand_cmds, withCmds_cmds] at hw
    exact .inl (hc ▸ List.mem_cons_of_mem v hw)
  | issue v rest hs _ e =>
    rw [e, issueWord_cmds, withSched_cmds, List.mem_append, List.mem_singleton] at hw
    obtain hw | rfl := hw
    · exact .inl hw
    · exact .inr (hs ▸ List.mem_cons_self)
  | take rest _ _ e => rw [e, takeDigest_cmds] at hw; exact .inl hw
  | hardReset rest _ _ e => rw [e] at hw; exact .inl hw

theorem noHashToCome_of_step {s t : State} (h : step s = .next t) (hs : NoHashToCome s) : NoHashToCome t := by
  obtain ⟨hcmds, hsched⟩ := hs
  refine ⟨fun w hw => ?_, fun w hw => hsched w (mem_sched_of_step h hw)⟩
  obtain hw | hw := mem_cmds_of_step h hw
  · exact hcmds w hw
  · exact hsched w hw

/-! ### A step beside another hasher triple -/

/-- From `s` and from `s` with the triple `h`, `f` goes on to two states that again differ in the triple at most. -/
def HidesHasher (f : State → Host.Outcome State Fault Refusal) (h : Hasher) (s : State) : Prop :=
  ∃ t g, f s = .next t ∧ f (setHasher h s) = .next (setHasher g t)

theorem exec_hidesHasher {i : Instr} (hi : i ≠ .hash) (h : Hasher) (s : State) : HidesHasher (exec i) h s := by
  obtain ⟨-, g, he⟩ | ⟨e, -⟩ := exec_cases i s
  · obtain ⟨-, g', he'⟩ | ⟨e, -⟩ := exec_cases i (setHasher h s)
    · exact ⟨_, g', he, by rw [he', setHasher_setHasher, setHasher_setHasher]⟩
    · exact absurd e hi
  · exact absurd e hi

theorem executeWord_hidesHasher {w : CmdWord} (hw : headerOf w ≠ 0xC0#8) (h : Hasher) (s : State) :
    HidesHasher (executeWord w) h s := by
  obtain ⟨-, i, hd⟩ | ⟨hl, -⟩ := decode_command_or_illegal w
  · have hi : i ≠ .hash := by
      rintro rfl
      exact hw (header_of_decode hd).symm
    obtain ⟨t, g, ht, hg⟩ := exec_hidesHasher hi h s
    exact ⟨t, g, (executeWord_of_command hd s).trans ht, (executeWord_of_command hd _).trans hg⟩
  · exact ⟨_, h, executeWord_of_illegal hl, executeWord_of_illegal hl⟩

theorem coreStep_hidesHasher {s : State} (hs : ∀ w ∈ s.cmds, headerOf w ≠ 0xC0#8) (h : Hasher) :
    HidesHasher coreStep h s := by
  cases hc : s.cmds with
  | nil => exact ⟨s, h, coreStep_of_idle hc, coreStep_of_idle (s := setHasher h s) hc⟩
  | cons w ws =>
    cases ha : acceptsWord s w with
    | false => exact ⟨s, h, coreStep_of_held hc ha, coreStep_of_held (s := setHasher h s) hc ha⟩
    | true =>
      have hw : headerOf w ≠ 0xC0#8 := hs w (hc ▸ List.mem_cons_self)
      obtain ⟨t, g, ht, hg⟩ := executeWord_hidesHasher hw h (withCmds ws s)
      rw [← withCmds_setHasher] at hg
      exact ⟨t, g, (coreStep_of_accepts hc ha).trans ht, (coreStep_of_accepts (s := setHasher h s) hc ha).trans hg⟩

theorem runMove_hidesHasher {s : State} (hs : ∀ w ∈ s.cmds, headerOf w ≠ 0xC0#8) (m : Move) (h : Hasher) :
    HidesHasher (runMove m) h s := by
  cases m with
  | issue w => exact ⟨_, h, rfl, rfl⟩
  | accept => exact coreStep_hidesHasher hs h
  | take => exact ⟨_, h, rfl, congrArg _ (takeDigest_setHasher h s)⟩
  | hardReset => exact ⟨_, hasherOf (hardwareReset s), rfl, rfl⟩
  | observe => exact ⟨_, h, rfl, rfl⟩
  | wait => exact ⟨_, h, rfl, rfl⟩

theorem step_hidesHasher {s : State} (hs : NoHashToCome s) (h : Hasher) : HidesHasher step h s := by
  obtain ⟨hcmds, -⟩ := hs
  cases hsched : s.sched with
  | nil =>
    obtain ⟨t, g, ht, hg⟩ := coreStep_hidesHasher hcmds h
    exact ⟨t, g, (step_of_unscheduled hsched).trans ht, (step_of_unscheduled (s := setHasher h s) hsched).trans hg⟩
  | cons m rest =>
    obtain ⟨t, g, ht, hg⟩ := runMove_hidesHasher (s := withSched rest s) hcmds m h
    rw [← withSched_setHasher] at hg
    exact ⟨t, g, (step_of_scheduled hsched).trans ht, (step_of_scheduled (s := setHasher h s) hsched).trans hg⟩

/-! ### What the host sees -/

theorem hostView_setHasher (h : Hasher) (s : State) : hostView (setHasher h s) = hostView s := rfl

/-- Settles O56: the view reads no register of the triple (`hostView_setHasher`), and neither does a step that executes no HASH
but to write the triple (`step_hidesHasher`). -/
theorem stepKeepsTheHasherHidden : Obligations.StepKeepsTheHasherHidden := by
  rintro s _ ⟨h, rfl⟩ hs
  obtain ⟨t, g, ht, hg⟩ := step_hidesHasher hs h
  exact ⟨(hostView_setHasher h s).symm, t, _, ht, hg, ⟨g, rfl⟩, noHashToCome_of_step ht hs⟩

theorem runs_keep_the_hasher_hidden (k : Nat) {s u : State} (hsu : SameButHasher s u) (hs : NoHashToCome s) :
    ∃ t v, Host.Core.run Sys2Proof.core k s = .next t ∧ Host.Core.run Sys2Proof.core k u = .next v ∧
      hostView t = hostView v := by
  induction k generalizing s u with
  | zero =>
    obtain ⟨hview, -⟩ := stepKeepsTheHasherHidden s u hsu hs
    exact ⟨s, u, rfl, rfl, hview⟩
  | succ k ih =>
    obtain ⟨-, t, v, ht, hv, htv, hnone⟩ := stepKeepsTheHasherHidden s u hsu hs
    rw [run_succ_of_step ht, run_succ_of_step hv]
    exact ih htv hnone

/-- Settles O45: by induction on the steps of the run, each kept alike by O56. -/
theorem hostSeesTheHasherOnlyThroughDigests : Obligations.HostSeesTheHasherOnlyThroughDigests :=
  fun k _ h hcmds hsched => runs_keep_the_hasher_hidden k ⟨h, rfl⟩ ⟨hcmds, hsched⟩

end Sys2Proof.Machine
end

section
/-! The command handshake (30_encoding.md R65): an edge with both signals 1 is the core's turn with a word it may take, a step
without them takes nothing, and edges on which the core waits keep the word on `CMD`. -/

namespace Sys2Proof.Machine

/-! ### The edge of the handshake -/

/-- An edge that is the core's is its turn. -/
theorem coreTurn_of_edge {s : State} (h : s.sched.head?.getD .accept = .accept) : CoreTurn s s.sched.tail := by
  cases hs : s.sched with
  | nil => exact .inl ⟨hs, rfl⟩
  | cons m rest =>
    obtain rfl : m = .accept := by simpa [hs] using h
    exact .inr hs

theorem atEdge_of_coreTurn {s : State} {rest : List Move} (h : CoreTurn s rest) : atEdge s = true := by
  obtain ⟨hs, -⟩ | hs := h <;> simp [atEdge, hs]

/-- The step accepts a word exactly at an edge with `CMD_VALID` and `CMD_READY` both 1. -/
theorem acceptedWord_iff_handshake {s : State} {w : CmdWord} : acceptedWord s = some w ↔
    atEdge s = true ∧ portCmdValid s = 1#1 ∧ portCmdReady s = 1#1 ∧ portCmd s = some w := by
  rw [acceptedWord_eq_some, portCmdValid_eq_one, portCmdReady_eq_one, portCmd]
  constructor
  · rintro ⟨ws, hc, hedge, ha⟩
    have hat := atEdge_of_coreTurn (coreTurn_of_edge hedge)
    exact ⟨hat, ⟨w, ws, hc⟩, ⟨(atEdge_nextEdge hat).trans hedge, (canAccept_of_offered hc).trans ha⟩,
      by rw [hc, List.head?_cons]⟩
  · rintro ⟨hat, -, ⟨hnext, hcan⟩, hcmd⟩
    obtain ⟨ws, hc⟩ := List.head?_eq_some_iff.1 hcmd
    exact ⟨ws, hc, (atEdge_nextEdge hat).symm.trans hnext, (canAccept_of_offered hc).symm.trans hcan⟩

theorem step_of_acceptedWord {s : State} {w : CmdWord} (h : acceptedWord s = some w) :
    step s = executeWord w { s with cmds := s.cmds.tail, sched := s.sched.tail } := by
  obtain ⟨ws, hc, hedge, ha⟩ := acceptedWord_eq_some.1 h
  rw [step_of_accepts (coreTurn_of_edge hedge) hc ha, hc]
  rfl

theorem exists_portCmd_of_valid {s : State} (h : portCmdValid s = 1#1) : ∃ w, portCmd s = some w := by
  obtain ⟨w, ws, hc⟩ := portCmdValid_eq_one.1 h
  exact ⟨w, by rw [portCmd, hc, List.head?_cons]⟩

/-! ### A step without the handshake -/

theorem acceptedWord_of_no_handshake {s : State} (h : ¬ (portCmdValid s = 1#1 ∧ portCmdReady s = 1#1)) :
    acceptedWord s = none := by
  rw [Option.eq_none_iff_forall_ne_some]
  intro w hw
  obtain ⟨-, hvalid, hready, -⟩ := acceptedWord_iff_handshake.1 hw
  exact h ⟨hvalid, hready⟩

/-- A step that accepts no word and is no hardware reset leaves the block's registers, and all the words offered before it. -/
theorem frame_of_no_acceptedWord {s t : State} (h : step s = .next t) (hm : s.sched.head? ≠ some .hardReset)
    (hn : acceptedWord s = none) :
    hasherOf t = hasherOf s ∧ t.fault = s.fault ∧ t.faultInfo = s.faultInfo ∧ ∃ ws, t.cmds = s.cmds ++ ws := by
  cases step_cases h with
  | idle _ _ e => subst e; exact ⟨rfl, rfl, rfl, [], (List.append_nil _).symm⟩
  | command i w ws rest _ _ _ _ hw _ => simp [hn] at hw
  | illegal w ws rest _ _ _ _ _ hw _ => simp [hn] at hw
  | issue w rest _ _ e => subst e; exact ⟨rfl, rfl, rfl, [w], rfl⟩
  | take rest _ _ e =>
    subst e
    exact ⟨hasherOf_takeDigest _, takeDigest_fault _, takeDigest_faultInfo _, [],
      (takeDigest_cmds _).trans (List.append_nil _).symm⟩
  | hardReset rest hs _ _ => simp [hs] at hm

/-- Words offered later stand behind the one on `CMD`. -/
theorem portCmd_of_appended {s t : State} {ws : List CmdWord} (h : t.cmds = s.cmds ++ ws) (hv : portCmdValid s = 1#1) :
    portCmd t = portCmd s := by
  obtain ⟨w, vs, hc⟩ := portCmdValid_eq_one.1 hv
  rw [portCmd, portCmd, h, hc, List.cons_append, List.head?_cons, List.head?_cons]

/-! ### `CMD_READY` at 0 -/

theorem portRst_eq_one {s : State} : portRst s = 1#1 ↔ s.sched.head? = some .hardReset := by
  unfold portRst
  by_cases h : s.sched.head? = some .hardReset
  · simp [h]
  · simp [h]

theorem portCmdReady_of_hardReset {s : State} (h : portRst s = 1#1) : portCmdReady s = 0#1 := by
  obtain ⟨rest, hs⟩ := List.head?_eq_some_iff.1 (portRst_eq_one.1 h)
  rw [portCmdReady_eq_zero]
  simp [hs]

/-- `i` edges on which the core waits use up `i` events and do nothing else. -/
theorem run_of_waits (i : Nat) {s : State} {rest : List Move} (hs : s.sched = List.replicate i .wait ++ rest) :
    Host.Core.run Sys2Proof.core i s = .next (withSched rest s) := by
  induction i generalizing s with
  | zero =>
    obtain rfl : s.sched = rest := hs
    rw [run_zero, withSched_self]
  | succ i ih =>
    have hstep : step s = .next (withSched (List.replicate i .wait ++ rest) s) := step_of_scheduled hs
    rw [run_succ_of_step hstep, ih rfl, withSched_withSched]

theorem portCmdReady_iff_not_held {s : State} {w : CmdWord} {ws : List CmdWord} (hf : s.fault = false)
    (hc : s.cmds = w :: ws) (he : nextEdge s.sched = .accept) : portCmdReady s = 1#1 ↔ heldByQueue s w = false := by
  rw [portCmdReady_eq_one, canAccept_of_offered hc, acceptsWord, hf]
  simp [he]

/-- Settles O4: the two signals at an edge are the acceptance of the word on `CMD` (`acceptedWord_iff_handshake`), a step without
it leaves the registers and the words (`frame_of_no_acceptedWord`), and a wait uses up its event alone (`run_of_waits`). -/
theorem commandHandshake : Obligations.CommandHandshake := by
  refine ⟨fun s hat hv hr => ?_, fun s t h hno hm => ?_, fun s w => acceptedWord_iff_handshake.1,
    fun s => portCmdReady_of_fault, fun s => portCmdReady_of_hardReset, fun k s w ws rest hf hc hs he => ⟨fun i hi => ?_, ?_⟩⟩
  · obtain ⟨w, hw⟩ := exists_portCmd_of_valid hv
    have haccepted := acceptedWord_iff_handshake.2 ⟨hat, hv, hr, hw⟩
    exact ⟨w, hw, haccepted, step_of_acceptedWord haccepted⟩
  · have hnone := acceptedWord_of_no_handshake hno
    obtain ⟨hhasher, hfault, hinfo, ws, hcmds⟩ := frame_of_no_acceptedWord h hm hnone
    exact ⟨hnone, hhasher, hfault, hinfo, ⟨ws, hcmds.symm⟩, portCmd_of_appended hcmds⟩
  · obtain ⟨j, rfl⟩ := Nat.exists_eq_add_of_lt hi
    have hsplit : s.sched = List.replicate i .wait ++ (.wait :: (List.replicate j .wait ++ rest)) := by
      rw [hs, Nat.add_assoc, List.replicate_add, List.append_assoc, List.replicate_succ, List.cons_append]
    refine ⟨_, run_of_waits i hsplit, ?_, ?_⟩
    · rw [portCmd, withSched_cmds, hc, List.head?_cons]
    · simp [portCmdReady_eq_zero]
  · refine ⟨_, run_of_waits k hs, ?_, portCmdReady_iff_not_held (s := withSched rest s) hf hc he⟩
    rw [portCmd, withSched_cmds, hc, List.head?_cons]

end Sys2Proof.Machine
end

section
/-! Runs on the core's turns (20_memory.md R51, 30_encoding.md R80): while the queue has room they are command sequences, and
sequences of BLOCK and TAIL are `include` calls. -/

namespace Sys2Proof.Machine

/-! ### What a command sequence leaves alone, and what it emits -/

/-- No command sequence touches what no command touches. -/
theorem runInstrs_frame {is : List Instr} {s t : State} (h : runInstrs is s = .next t) :
    t.fault = s.fault ∧ t.cfg = s.cfg ∧ t.cmds = s.cmds ∧ t.taken = s.taken ∧ t.sched = s.sched := by
  induction is generalizing s with
  | nil => cases h; exact ⟨rfl, rfl, rfl, rfl, rfl⟩
  | cons i is ih =>
    obtain ⟨u, hu⟩ := exec_completes i s
    rw [runInstrs_cons hu] at h
    obtain ⟨hfault, hcfg, hcmds, htaken, hsched⟩ := ih h
    obtain ⟨hfault', -, hcfg', hcmds', htaken', hsched'⟩ := exec_frame hu
    exact ⟨hfault.trans hfault', hcfg.trans hcfg', hcmds.trans hcmds', htaken.trans htaken', hsched.trans hsched'⟩

theorem emitted_of_runInstrs {is : List Instr} {s t : State} (h : runInstrs is s = .next t) :
    emitted t = emitted s ++ digestsAlong s.cfg.seedExt is (hasherOf s) := by
  obtain ⟨u, hu, -, hq⟩ := runInstrs_completes is s
  cases hu.symm.trans h
  obtain ⟨-, -, -, htaken, -⟩ := runInstrs_frame h
  rw [emitted, emitted, hq, htaken, List.append_assoc]

/-- What a command does depends on no word still offered and no event still to come. -/
theorem exec_withCmds_withSched {i : Instr} {s t : State} (ws : List CmdWord) (rest : List Move)
    (h : exec i s = .next t) : exec i (withCmds ws (withSched rest s)) = .next (withCmds ws (withSched rest t)) :=
  exec_withCmds ws (exec_withSched rest h)

/-! ### Turns that are all the core's -/

/-- The next `n` turns are the core's. `rest` is the schedule after them. -/
def CoreTurns (n : Nat) (s : State) (rest : List Move) : Prop :=
  (s.sched = [] ∧ rest = []) ∨ s.sched = List.replicate n .accept ++ rest

theorem coreTurns_zero {s : State} {rest : List Move} (h : CoreTurns 0 s rest) : s.sched = rest := by
  obtain ⟨hs, hr⟩ | hs := h
  · rw [hs, hr]
  · exact hs

theorem acceptedWord_of_coreTurn {s : State} {rest : List Move} {w : CmdWord} {ws : List CmdWord} (ht : CoreTurn s rest)
    (hc : s.cmds = w :: ws) (ha : acceptsWord s w = true) : acceptedWord s = some w := by
  have hedge : s.sched.head?.getD .accept = .accept := by
    obtain ⟨hs, -⟩ | hs := ht
    · rw [hs]; rfl
    · rw [hs]; rfl
  exact acceptedWord_eq_some.2 ⟨ws, hc, hedge, ha⟩

/-- The first of the turns is the core's, and one turn fewer is left after it. -/
theorem coreTurns_succ {n : Nat} {s : State} {rest : List Move} (h : CoreTurns (n + 1) s rest) :
    ∃ more, CoreTurn s more ∧ ∀ t : State, t.sched = more → CoreTurns n t rest := by
  obtain ⟨hs, hr⟩ | hs := h
  · exact ⟨[], .inl ⟨hs, rfl⟩, fun t ht => .inl ⟨ht, hr⟩⟩
  · rw [List.replicate_succ, List.cons_append] at hs
    exact ⟨List.replicate n .accept ++ rest, .inr hs, fun t ht => .inr ht⟩

/-- The queue has room for `k` digests, and is not full after them. -/
def HasRoom (k : Nat) (s : State) : Prop :=
  ∀ n, s.cfg.rspDepth = .slots n → s.rspQ.length + k < n

theorem hasRoom_of_unbounded {s : State} (h : s.cfg.rspDepth = .unbounded) (k : Nat) : HasRoom k s := by
  intro n hn
  simp [h] at hn

theorem hasRoom_zero_of_empty {s : State} (hq : s.rspQ = []) (hwf : s.cfg.wf = true) : HasRoom 0 s := by
  intro n hn
  rw [Config.wf, hn] at hwf
  simpa [hq, Nat.pos_iff_ne_zero, Nat.one_le_iff_ne_zero] using hwf

theorem rspFull_of_hasRoom {k : Nat} {s : State} (h : HasRoom k s) : rspFull s = false :=
  rspFull_eq_false_iff.2 fun n hn => (Nat.le_add_right _ k).trans_lt (h n hn)

/-- HASH appends one digest, and no other command appends any. -/
theorem length_digestsOf (i : Instr) (h : Hasher) : (digestsOf i h).length = [i].count .hash := by
  cases i <;> rfl

theorem hasRoom_of_exec {i : Instr} {k : Nat} {s t : State} (h : exec i s = .next t)
    (hroom : HasRoom ([i].count .hash + k) s) : HasRoom k t := by
  obtain ⟨-, -, hcfg, -⟩ := exec_frame h
  intro n hn
  have hs := hroom n (hcfg ▸ hn)
  rw [rspQ_of_exec h, List.length_append, length_digestsOf]
  omega

/-- While the queue has room, each of the core's turns takes the next word, and a run of such turns executes the words' commands
in order. -/
theorem run_of_commands {is : List Instr} {vs ws : List CmdWord} {s : State} {rest : List Move}
    (hd : vs.map decode = is.map .command) (hc : s.cmds = vs ++ ws) (hf : s.fault = false)
    (ht : CoreTurns vs.length s rest) (hroom : HasRoom (is.count .hash) s) :
    Host.Core.run Sys2Proof.core vs.length s = runInstrs is (withCmds ws (withSched rest s)) ∧
      acceptedWords vs.length s = vs := by
  induction vs generalizing is s with
  | nil =>
    obtain rfl : is = [] := by simpa using hd.symm
    obtain rfl := coreTurns_zero ht
    obtain rfl : s.cmds = ws := hc
    exact ⟨rfl, rfl⟩
  | cons v vs ih =>
    obtain ⟨i, is, rfl, hv, hvs⟩ := List.map_eq_cons_iff.1 hd.symm
    obtain ⟨more, hturn, hmore⟩ := coreTurns_succ ht
    have haccepts := acceptsWord_of_not_full (w := v) hf (rspFull_of_hasRoom hroom)
    obtain ⟨u, hu⟩ := exec_completes i (withCmds (vs ++ ws) (withSched more s))
    have hstep : step s = .next u := (step_of_command hturn hc haccepts hv.symm).trans hu
    obtain ⟨hfault, -, -, hcmds, -, hsched⟩ := exec_frame hu
    have hroom' : HasRoom (is.count .hash) u := hasRoom_of_exec hu (by rwa [← List.count_append])
    obtain ⟨hrun, hwords⟩ := ih hvs.symm hcmds (hfault.trans hf) (hmore u hsched) hroom'
    have hfirst : exec i (withCmds ws (withSched rest s)) = .next (withCmds ws (withSched rest u)) :=
      exec_withCmds_withSched (s := withCmds (vs ++ ws) (withSched more s)) ws rest hu
    rw [List.length_cons, run_succ_of_step hstep, hrun, runInstrs_cons hfirst, acceptedWords_succ_of_step hstep, hwords,
      acceptedWord_of_coreTurn hturn hc haccepts]
    exact ⟨rfl, rfl⟩

/-! ### The order of execution (20_memory.md R51) -/

/-- The queue after more commands begins with the queue before them. -/
theorem rspQ_grows_along_runInstrs {is : List Instr} {s t : State} (h : runInstrs is s = .next t) : s.rspQ <+: t.rspQ := by
  obtain ⟨u, hu, -, hq⟩ := runInstrs_completes is s
  cases hu.symm.trans h
  exact ⟨_, hq.symm⟩

/-- With an unbounded queue and no event listed, running the offered words is executing their commands. -/
theorem run_of_unbounded {is : List Instr} {s : State} (hf : s.fault = false) (hs : s.sched = [])
    (hn : s.cfg.rspDepth = .unbounded) (hd : s.cmds.map decode = is.map .command) :
    Host.Core.run Sys2Proof.core s.cmds.length s = runInstrs is (withCmds [] s) := by
  obtain ⟨hrun, -⟩ := run_of_commands hd (List.append_nil _).symm hf (.inl ⟨hs, rfl⟩) (hasRoom_of_unbounded hn _)
  rw [hrun, ← hs, withSched_self]

/-- The digest that a HASH within a sequence queues is that of the state the commands before it left. -/
theorem runInstrs_append_hash (is js : List Instr) (s : State) : ∃ t u : State, runInstrs is s = .next t ∧
    runInstrs (is ++ .hash :: js) s = .next u ∧ t.rspQ ++ [digestOf (hasherOf t)] <+: u.rspQ := by
  obtain ⟨t, ht, -⟩ := runInstrs_completes is s
  obtain ⟨u, hu, -⟩ := runInstrs_completes js (rspPush (digestOf (hasherOf t)) t)
  exact ⟨t, u, ht, by rw [runInstrs_append ht, runInstrs_cons (exec_hash t), hu], rspQ_grows_along_runInstrs hu⟩

/-- Settles O11: every turn takes the next word (`run_of_commands`), a sequence is cut before its HASH
(`runInstrs_append_hash`), and the host takes the head of the queue. -/
theorem commandsExecuteInOrder : Obligations.CommandsExecuteInOrder :=
  ⟨fun _ _ hf hs hn hd => run_of_unbounded hf hs hn hd, runInstrs_append_hash,
    fun _ _ _ _ hs hq => ⟨_, step_of_take hs hq, rfl, rfl⟩⟩

/-! ### Legal sequences (30_encoding.md R80) -/

/-- Words with listed headers are commands. -/
theorem exists_map_decode_eq {ws : List CmdWord} (h : ∀ w ∈ ws, ListedHeader (headerOf w)) :
    ∃ is : List Instr, ws.map decode = is.map .command := by
  induction ws with
  | nil => exact ⟨[], rfl⟩
  | cons w ws ih =>
    obtain ⟨hw, hws⟩ := List.forall_mem_cons.1 h
    obtain ⟨i, hi⟩ := exists_decode_command_iff.2 hw
    obtain ⟨is, his⟩ := ih hws
    exact ⟨i :: is, by rw [List.map_cons, hi, his, List.map_cons]⟩

theorem tailHasher_maskLanes (n : BitVec 4) (d : Payload) (h : Hasher) :
    tailHasher n (maskLanes n.toNat d) h = tailHasher n d h := by
  simp only [tailHasher, tailK, maskLanes_maskLanes]

theorem length_inputBytes_tail (n : BitVec 4) (d : Payload) : (inputBytes (.tail n d)).length = n.toNat := by
  have hn : n.toNat < 16 := n.isLt
  simp [inputBytes, hn.le]

theorem includeHasher_inputBytes_block (k1 k2 : Word) (h : Hasher) :
    includeHasher h (inputBytes (.block k1 k2)) = blockHasher k1 k2 h := by
  rw [inputBytes, ← List.append_nil (lanesOf _), includeHasher_append _ (length_lanesOf _), includeHasher_nil, blk,
    payloadOf_lanesOf, lowHalf_cat64, highHalf_cat64]

theorem includeHasher_inputBytes_tail (n : BitVec 4) (d : Payload) (h : Hasher) :
    includeHasher h (inputBytes (.tail n d)) = tailHasher n d h := by
  have hlen := length_inputBytes_tail n d
  rw [includeHasher_of_lt _ (by rw [hlen]; exact n.isLt), tl, hlen, BitVec.ofNat_toNat, BitVec.setWidth_eq, inputBytes,
    ← maskLanes_eq_payloadOf_take, tailHasher_maskLanes]

/-- One BLOCK or TAIL acts as the `include` call on the bytes it carries. -/
theorem exec_eq_runInstrs_include {i : Instr} (hi : (∃ k1 k2, i = .block k1 k2) ∨ ∃ n d, i = .tail n d) (s : State) :
    exec i s = runInstrs (includeInstrs (inputBytes i)) s := by
  rw [runInstrs_includeInstrs]
  obtain ⟨k1, k2, rfl⟩ | ⟨n, d, rfl⟩ := hi
  · rw [includeHasher_inputBytes_block, exec_block]
  · rw [includeHasher_inputBytes_tail, exec_tail]

theorem runInstrs_eq_includes {is : List Instr} (h : ∀ i ∈ is, (∃ k1 k2, i = .block k1 k2) ∨ ∃ n d, i = .tail n d)
    (s : State) : runInstrs is s = runInstrs ((is.map inputBytes).flatMap includeInstrs) s := by
  induction is generalizing s with
  | nil => rfl
  | cons i is ih =>
    obtain ⟨hi, his⟩ := List.forall_mem_cons.1 h
    obtain ⟨t, ht⟩ := exec_completes i s
    have hcall := (exec_eq_runInstrs_include hi s).symm.trans ht
    rw [runInstrs_cons ht, List.map_cons, List.flatMap_cons, runInstrs_append hcall, ih his]

/-- Settles O10: a command sequence touches no fault record (`runInstrs_frame`), a word with a listed header is a command, so
the run is `run_of_unbounded`'s, and a BLOCK or TAIL is the call on its own bytes. -/
theorem everyLegalSequenceRuns : Obligations.EveryLegalSequenceRuns := by
  refine ⟨fun is s => ?_, fun s hf hs hn hl => ?_, fun is h => ⟨is.map inputBytes, runInstrs_eq_includes h⟩⟩
  · obtain ⟨t, ht, -⟩ := runInstrs_completes is s
    obtain ⟨hfault, -, hcmds, -⟩ := runInstrs_frame ht
    exact ⟨t, ht, hfault, hcmds⟩
  · obtain ⟨is, hd⟩ := exists_map_decode_eq hl
    obtain ⟨t, ht, -⟩ := runInstrs_completes is (withCmds [] s)
    obtain ⟨hfault, -, hcmds, -⟩ := runInstrs_frame ht
    exact ⟨t, (run_of_unbounded hf hs hn hd).trans ht, hcmds, hfault.trans hf⟩

end Sys2Proof.Machine
end

section
/-! Runs under every schedule without hardware reset and fault (20_memory.md R51): the accepted words are a command sequence, and
the hasher triple and the emitted digests are what it leaves. -/

namespace Sys2Proof.Machine

theorem hasherAlong_append (ext : SeedExt) (is js : List Instr) (h : Hasher) :
    hasherAlong ext (is ++ js) h = hasherAlong ext js (hasherAlong ext is h) := by
  induction is generalizing h with
  | nil => rfl
  | cons i is ih => rw [List.cons_append, hasherAlong, hasherAlong, ih]

theorem digestsAlong_append (ext : SeedExt) (is js : List Instr) (h : Hasher) :
    digestsAlong ext (is ++ js) h = digestsAlong ext is h ++ digestsAlong ext js (hasherAlong ext is h) := by
  induction is generalizing h with
  | nil => rfl
  | cons i is ih => rw [List.cons_append, digestsAlong, digestsAlong, hasherAlong, ih, List.append_assoc]

/-- From `s` to `t` the accepted words `ws` are commands, and the triple and the emitted digests are what they leave in order. -/
def RanCommands (ws : List CmdWord) (s t : State) : Prop :=
  ∃ is : List Instr, ws.map decode = is.map .command ∧ t.cfg = s.cfg ∧
    hasherOf t = hasherAlong s.cfg.seedExt is (hasherOf s) ∧
    emitted t = emitted s ++ digestsAlong s.cfg.seedExt is (hasherOf s)

theorem ranCommands_nil {s t : State} (hcfg : t.cfg = s.cfg) (hhasher : hasherOf t = hasherOf s)
    (hemitted : emitted t = emitted s) : RanCommands [] s t :=
  ⟨[], rfl, hcfg, hhasher, by rw [hemitted, digestsAlong, List.append_nil]⟩

theorem RanCommands.append {vs ws : List CmdWord} {s t u : State} (hst : RanCommands vs s t) (htu : RanCommands ws t u) :
    RanCommands (vs ++ ws) s u := by
  obtain ⟨is, hd, hcfg, hhasher, hemitted⟩ := hst
  obtain ⟨js, hd', hcfg', hhasher', hemitted'⟩ := htu
  rw [hcfg, hhasher] at hhasher' hemitted'
  refine ⟨is ++ js, by rw [List.map_append, List.map_append, hd, hd'], hcfg'.trans hcfg, ?_, ?_⟩
  · rw [hhasher', hasherAlong_append]
  · rw [hemitted', hemitted, digestsAlong_append, List.append_assoc]

theorem ranCommands_of_exec {i : Instr} {w : CmdWord} {s t : State} (hd : decode w = .command i) (h : exec i s = .next t) :
    RanCommands [w] s t := by
  obtain ⟨-, -, hcfg, -⟩ := exec_frame h
  refine ⟨[i], by rw [List.map_singleton, List.map_singleton, hd], hcfg, hasherOf_of_exec h, ?_⟩
  rw [emitted_of_exec h, digestsAlong, digestsAlong, List.append_nil]

theorem ranCommands_of_step {s t : State} (h : step s = .next t) (hm : s.sched.head? ≠ some .hardReset)
    (hf : t.fault = false) : RanCommands (acceptedWord s).toList s t := by
  cases step_cases h with
  | idle _ hw e => subst e; rw [hw]; exact ranCommands_nil rfl rfl rfl
  | command i w ws rest _ _ _ hd hw e =>
    rw [hw]
    exact ranCommands_of_exec (s := withCmds ws (withSched rest s)) hd e
  | illegal w ws rest _ _ _ _ _ _ e => simp [e] at hf
  | issue w rest _ hw e => subst e; rw [hw]; exact ranCommands_nil rfl rfl rfl
  | take rest _ hw e =>
    subst e
    rw [hw]
    exact ranCommands_nil (takeDigest_cfg _) (hasherOf_takeDigest _) (emitted_takeDigest _)
  | hardReset rest hs _ _ => simp [hs] at hm

/-- The first event of a run and the events after it, none of them a hardware reset. -/
theorem no_hardReset_of_take_succ {k : Nat} {s t : State} (h : step s = .next t)
    (hm : Move.hardReset ∉ s.sched.take (k + 1)) :
    s.sched.head? ≠ some .hardReset ∧ Move.hardReset ∉ t.sched.take k := by
  rw [sched_of_step h]
  cases hs : s.sched with
  | nil => simp
  | cons m rest => simpa [hs, eq_comm] using hm

/-- Without hardware reset a run that ends without fault has none on the way. -/
theorem fault_eq_false_of_run {k : Nat} {s t : State} (hm : Move.hardReset ∉ s.sched.take k)
    (h : Host.Core.run Sys2Proof.core k s = .next t) (ht : t.fault = false) : s.fault = false := by
  induction k generalizing s with
  | zero => cases h; exact ht
  | succ k ih =>
    obtain ⟨u, hu, h⟩ := run_succ_next h
    obtain ⟨hhead, htail⟩ := no_hardReset_of_take_succ hu hm
    by_contra hs
    obtain ⟨hkept, -⟩ := fault_kept_by_step hu (Bool.eq_true_of_not_eq_false hs) hhead
    simp [ih htail h] at hkept

theorem ranCommands_of_run {k : Nat} {s t : State} (hm : Move.hardReset ∉ s.sched.take k)
    (h : Host.Core.run Sys2Proof.core k s = .next t) (ht : t.fault = false) : RanCommands (acceptedWords k s) s t := by
  induction k generalizing s with
  | zero => cases h; exact ranCommands_nil rfl rfl rfl
  | succ k ih =>
    obtain ⟨u, hu, h⟩ := run_succ_next h
    obtain ⟨hhead, htail⟩ := no_hardReset_of_take_succ hu hm
    rw [acceptedWords_succ_of_step hu]
    exact (ranCommands_of_step hu hhead (fault_eq_false_of_run htail h ht)).append (ih htail h)

/-- Settles O54: step by step the accepted word is the command executed (`ranCommands_of_step`), since a fault on the way would
last to the end, and a command sequence leaves the triple and the digests of `RanCommands`. -/
theorem acceptedWordsRunInOrder : Obligations.AcceptedWordsRunInOrder := by
  intro k s t hm h ht
  obtain ⟨is, hd, -, hhasher, hemitted⟩ := ranCommands_of_run hm h ht
  obtain ⟨u, hu, hu', -⟩ := runInstrs_completes is s
  exact ⟨is, u, hd, hu, hhasher.trans hu'.symm, hemitted.trans (emitted_of_runInstrs hu).symm⟩

end Sys2Proof.Machine
end

section
/-! Programs that run to their end (70_reset_and_hazards.md R231): such runs put together, a word and the taking of its digest, and
the one-shot hash. -/

namespace Sys2Proof.Machine

/-! ### The HASH words of a program -/

theorem isHashWord_of_decode {w : CmdWord} {i : Instr} (h : decode w = .command i) : isHashWord w = (i == .hash) := by
  rw [isHashWord, ← header_of_decode h]
  cases i with
  | tail n data =>
    have hne : ∀ n : BitVec 4, ((0x8#4 ++ n : BitVec 8) == 0xC0#8) = false := by decide
    exact hne n
  | _ => rfl

/-- The HASH words of a program are the HASHes among its commands. -/
theorem hashCount_of_decode {ws : List CmdWord} {is : List Instr} (h : ws.map decode = is.map .command) :
    hashCount ws = is.count .hash := by
  induction ws generalizing is with
  | nil =>
    obtain rfl : is = [] := by simpa using h.symm
    rfl
  | cons w ws ih =>
    obtain ⟨i, is, rfl, hi, his⟩ := List.map_eq_cons_iff.1 h.symm
    have htail := ih his.symm
    rw [hashCount] at htail ⊢
    rw [List.countP_cons, List.count_cons, htail, isHashWord_of_decode hi.symm]

theorem hashCount_append (ps qs : List CmdWord) : hashCount (ps ++ qs) = hashCount ps + hashCount qs :=
  List.countP_append

/-! ### Runs put together -/

/-- A run uses one event up for each of its steps. -/
theorem sched_of_run {k : Nat} {s t : State} (h : Host.Core.run Sys2Proof.core k s = .next t) :
    t.sched = s.sched.drop k := by
  induction k generalizing s with
  | zero => cases h; rfl
  | succ k ih =>
    obtain ⟨u, hu, h⟩ := run_succ_next h
    rw [ih h, sched_of_step hu, List.drop_tail]

theorem run_add {j : Nat} {s t : State} (h : Host.Core.run Sys2Proof.core j s = .next t) (k : Nat) :
    Host.Core.run Sys2Proof.core (j + k) s = Host.Core.run Sys2Proof.core k t := by
  induction j generalizing s with
  | zero => cases h; rw [Nat.zero_add]
  | succ j ih =>
    obtain ⟨u, hu, h⟩ := run_succ_next h
    rw [Nat.succ_add, run_succ_of_step hu, ih h]

theorem acceptedWords_add {j : Nat} {s t : State} (h : Host.Core.run Sys2Proof.core j s = .next t) (k : Nat) :
    acceptedWords (j + k) s = acceptedWords j s ++ acceptedWords k t := by
  induction j generalizing s with
  | zero => cases h; rw [Nat.zero_add, acceptedWords_zero, List.nil_append]
  | succ j ih =>
    obtain ⟨u, hu, h⟩ := run_succ_next h
    rw [Nat.succ_add, acceptedWords_succ_of_step hu, acceptedWords_succ_of_step hu, ih h, List.append_assoc]

theorem ranToEnd_nil {s : State} (hf : s.fault = false) : RanToEnd [] 0 s s :=
  ⟨rfl, by simp, rfl, hf, rfl⟩

theorem ranToEnd_append {p q : List CmdWord} {j k : Nat} {s t u : State} (hst : RanToEnd p j s t)
    (htu : RanToEnd q k t u) : RanToEnd (p ++ q) (j + k) s u := by
  obtain ⟨hrun, hm, hwords, -, htaken⟩ := hst
  obtain ⟨hrun', hm', hwords', hfault, htaken'⟩ := htu
  refine ⟨(run_add hrun k).trans hrun', ?_, by rw [acceptedWords_add hrun, hwords, hwords'], hfault, ?_⟩
  · rw [List.take_add, List.mem_append, ← sched_of_run hrun]
    exact not_or.2 ⟨hm, hm'⟩
  · rw [htaken', htaken, hashCount_append, Nat.add_assoc]

/-! ### A word and its digest -/

/-- The host takes the only digest queued, if there is one. -/
theorem takeDigest_of_length_le_one {s : State} (h : s.rspQ.length ≤ 1) :
    (takeDigest s).rspQ = [] ∧ (takeDigest s).taken = s.taken ++ s.rspQ := by
  obtain ⟨hq, e⟩ | ⟨d, ds, hq, e⟩ := takeDigest_cases s
  · rw [e, hq, List.append_nil]
    exact ⟨rfl, rfl⟩
  · have hds : ds = [] := by simpa [hq] using h
    simp [e, hq, hds]

/-- What an edge for the core and an edge for the host after it do with a legal word when nothing is queued: the word is
accepted, and its digest, if it has one, is taken. -/
theorem ranToEnd_accept_take {s : State} {w : CmdWord} {ws : List CmdWord} {i : Instr} {rest : List Move}
    (hf : s.fault = false) (hq : s.rspQ = []) (hwf : s.cfg.wf = true) (hc : s.cmds = w :: ws) (hd : decode w = .command i)
    (hs : s.sched = .accept :: .take :: rest) :
    ∃ t, RanToEnd [w] 2 s t ∧ t.rspQ = [] ∧ t.cfg = s.cfg ∧ t.cmds = ws ∧
      hasherOf t = hasherAfter s.cfg.seedExt i (hasherOf s) ∧ t.taken = s.taken ++ digestsOf i (hasherOf s) := by
  have haccepts := acceptsWord_of_not_full (w := w) hf (rspFull_of_hasRoom (hasRoom_zero_of_empty hq hwf))
  obtain ⟨u, hu⟩ := exec_completes i (withCmds ws (withSched (.take :: rest) s))
  obtain ⟨hfault, -, hcfg, hcmds, htaken, hsched⟩ := exec_frame hu
  have hfirst : step s = .next u := (step_of_command (.inr hs) hc haccepts hd).trans hu
  have hsecond : step u = .next (takeDigest (withSched rest u)) := step_of_scheduled hsched
  have hqueue : u.rspQ = digestsOf i (hasherOf s) := by
    rw [rspQ_of_exec hu, withCmds_rspQ, withSched_rspQ, hq, List.nil_append, hasherOf_withCmds, hasherOf_withSched]
  have hlen : (withSched rest u).rspQ.length ≤ 1 := by
    rw [withSched_rspQ, hqueue, length_digestsOf]
    exact List.count_le_length
  obtain ⟨hempty, htakes⟩ := takeDigest_of_length_le_one hlen
  rw [withSched_rspQ, withSched_taken, hqueue, htaken] at htakes
  have hrun : Host.Core.run Sys2Proof.core 2 s = .next (takeDigest (withSched rest u)) :=
    (run_succ_of_step hfirst).trans (run_succ_of_step hsecond)
  have hwords : acceptedWords 2 s = [w] := by
    rw [acceptedWords_succ_of_step hfirst, acceptedWords_succ_of_step hsecond,
      acceptedWord_of_coreTurn (.inr hs) hc haccepts, acceptedWord_of_hostMove hsched (by simp)]
    rfl
  refine ⟨_, ⟨hrun, by simp [hs], hwords, ?_, ?_⟩, hempty, ?_, ?_, ?_, htakes⟩
  · rw [takeDigest_fault, withSched_fault, hfault]
    exact hf
  · rw [htakes, hashCount_of_decode (is := [i]) (by rw [List.map_singleton, hd, List.map_singleton]), List.length_append,
      length_digestsOf]
    rfl
  · rw [takeDigest_cfg, withSched_cfg, hcfg]
    rfl
  · rw [takeDigest_cmds, withSched_cmds, hcmds]
    rfl
  · rw [hasherOf_takeDigest, hasherOf_withSched, hasherOf_of_exec hu]
    rfl

/-- Settles O55: the queue is empty before each word, so an edge for the core and one for the host finish it
(`ranToEnd_accept_take`), and the runs of the words are put together (`ranToEnd_append`). -/
theorem everyLegalProgramRunsToItsEnd : Obligations.EveryLegalProgramRunsToItsEnd := by
  intro s hf hq hwf hl hs
  induction hc : s.cmds generalizing s with
  | nil => exact ⟨s, ranToEnd_nil hf, hc, hq⟩
  | cons w ws ih =>
    rw [hc] at hl hs
    obtain ⟨hw, hws⟩ := List.forall_mem_cons.1 hl
    obtain ⟨i, hd⟩ := exists_decode_command_iff.2 hw
    obtain ⟨u, hend, hqu, hcfg, hcu, -⟩ := ranToEnd_accept_take hf hq hwf hc hd hs
    have ⟨hrun, _, _, hfu, _⟩ := hend
    have hsu : u.sched = (List.replicate ws.length [Move.accept, Move.take]).flatten := by
      rw [sched_of_run hrun, hs]
      rfl
    obtain ⟨t, hend', hct, hqt⟩ := ih u hfu hqu (hcfg ▸ hwf) (hcu ▸ hws) (hcu ▸ hsu) hcu
    refine ⟨t, ?_, hct, hqt⟩
    rw [List.length_cons, Nat.mul_succ, Nat.add_comm]
    exact ranToEnd_append hend hend'

/-! ### The one-shot hash (44_include.md R161) -/

theorem decode_encode_of_wellFormed {i : Instr} (h : i.WellFormed) : decode (encode i) = .command i := by
  rw [decode_encode, clearIgnored_of_wellFormed h]

theorem map_decode_includeWords (b : List Byte) : (includeWords b).map decode = (includeInstrs b).map .command := by
  rw [includeWords, List.map_map]
  exact List.map_congr_left fun i hi => decode_encode_of_wellFormed (wellFormed_includeInstrs b i hi)

theorem hash_notMem_includeInstrs (b : List Byte) : Instr.hash ∉ includeInstrs b := by
  induction b using block_induction with
  | tail t ht => simp [includeInstrs_of_lt ht, tailOfBytes]
  | block c b hc ih => simp [includeInstrs_append hc, blockOfBytes, ih]

theorem runInstrs_reset_includeInstrs (seed : BitVec 32) (b : List Byte) (s : State) :
    runInstrs (.reset seed :: includeInstrs b) s =
      .next (setHasher (includeHasher (seedHasher s.cfg.seedExt seed) b) s) := by
  rw [runInstrs_cons (exec_reset seed s), runInstrs_includeInstrs, hasherOf_setHasher, setHasher_setHasher]

/-- The words before the HASH run to their end while nothing is queued, and leave `include(S0(seed), b)`. -/
theorem ranToEnd_reset_include {s : State} {seed : BitVec 32} {b : List Byte} {ws : List CmdWord} {rest : List Move}
    (hf : s.fault = false) (hq : s.rspQ = []) (hwf : s.cfg.wf = true)
    (hc : s.cmds = (encode (.reset seed) :: includeWords b) ++ ws)
    (hs : s.sched = List.replicate (encode (.reset seed) :: includeWords b).length .accept ++ rest) :
    RanToEnd (encode (.reset seed) :: includeWords b) (encode (.reset seed) :: includeWords b).length s
      (setHasher (includeHasher (seedHasher s.cfg.seedExt seed) b) (withCmds ws (withSched rest s))) := by
  have hd : (encode (.reset seed) :: includeWords b).map decode = (.reset seed :: includeInstrs b).map .command := by
    rw [List.map_cons, map_decode_includeWords, decode_encode_of_wellFormed rfl, List.map_cons]
  have hcount : (Instr.reset seed :: includeInstrs b).count .hash = 0 :=
    List.count_eq_zero.2 (by simp [hash_notMem_includeInstrs])
  obtain ⟨hrun, hwords⟩ := run_of_commands hd hc hf (.inr hs) (hcount ▸ hasRoom_zero_of_empty hq hwf)
  rw [runInstrs_reset_includeInstrs] at hrun
  refine ⟨hrun, ?_, hwords, hf, by rw [hashCount_of_decode hd, hcount]; rfl⟩
  rw [hs, List.take_left' List.length_replicate]
  exact fun h => nomatch List.eq_of_mem_replicate h

/-- Settles O35: the words before the HASH run with the queue empty (`ranToEnd_reset_include`), and the HASH's digest is taken
on the edge after it (`ranToEnd_accept_take`). -/
theorem oneShotHashRunsToItsEnd : Obligations.OneShotHashRunsToItsEnd := by
  intro s seed b hf hq hwf hc hs
  have hsched : s.sched = List.replicate (encode (.reset seed) :: includeWords b).length .accept ++ [.accept, .take] := by
    rw [hs, oneShotWords, ← List.cons_append, List.length_append, List.length_singleton, List.replicate_succ',
      List.append_assoc]
    rfl
  have hbefore := ranToEnd_reset_include hf hq hwf hc hsched
  obtain ⟨t, hhash, -, -, hcmds, hhasher, htaken⟩ := ranToEnd_accept_take
    (s := setHasher (includeHasher (seedHasher s.cfg.seedExt seed) b)
      (withCmds [encode .hash] (withSched [.accept, .take] s)))
    hf hq hwf rfl (decode_encode_of_wellFormed (i := .hash) rfl) rfl
  have hlength : s.sched.length = (encode (.reset seed) :: includeWords b).length + 2 := by
    rw [hsched, List.length_append, List.length_replicate]
    rfl
  have hdigest : t.taken = s.taken ++ [hash128 s.cfg.seedExt seed b] := by
    rw [htaken]
    rfl
  refine ⟨t, ?_, hcmds, hdigest, ?_⟩
  · rw [hlength]
    exact ranToEnd_append hbefore hhash
  · rw [resultOf, hdigest, List.drop_left, hhasher]
    rfl

end Sys2Proof.Machine
end

section
/-! The assembler's lines (30_encoding.md R77, R78): the words of a line, by its operands. -/

namespace Sys2Proof.Machine

/-! ### RESET: seeds modulo 2^32 -/

theorem assembleLine_reset {n : Int} (hlow : -2 ^ 31 ≤ n) (hhigh : n ≤ 2 ^ 32 - 1) :
    assembleLine (.reset n) = some [encode (.reset (BitVec.ofInt 32 n))] := by
  have hrange : -2147483648 ≤ n ∧ n ≤ 4294967295 := by omega
  rw [assembleLine, assembleInstrs, if_pos hrange]
  rfl

theorem assembleLine_reset_of_out_of_range {n : Int} (h : n < -2 ^ 31 ∨ 2 ^ 32 - 1 < n) :
    assembleLine (.reset n) = none := by
  have hrange : ¬ (-2147483648 ≤ n ∧ n ≤ 4294967295) := by omega
  rw [assembleLine, assembleInstrs, if_neg hrange, Option.map_none]

/-- The seed is all of the payload. -/
theorem toNat_payloadPart_encode_reset (n : Int) :
    ((payloadPart (encode (.reset (BitVec.ofInt 32 n)))).toNat : Int) = n % 2 ^ 32 := by
  have hlt : (BitVec.ofInt 32 n).toNat < 2 ^ 128 := (BitVec.ofInt 32 n).isLt.trans (by decide)
  rw [payloadPart_encode, Instr.payload, BitVec.toNat_setWidth, Nat.mod_eq_of_lt hlt, BitVec.toNat_ofInt]
  exact Int.toNat_of_nonneg (Int.emod_nonneg n (by decide))

/-! ### BLOCK and TAIL: operand counts -/

theorem encode_blockOfBytes (b : List Byte) : encode (blockOfBytes b) = makeWord 0x40#8 (payloadOf b) := by
  rw [blockOfBytes, encode, Instr.payload, cat64_halves, Instr.header]

theorem assembleLine_block (b : List Byte) :
    assembleLine (.block b) = if b.length = 16 then (wordOfImage (0x40#8 :: b)).map ([·]) else none := by
  by_cases h : b.length = 16
  · simp [assembleLine, assembleInstrs, wordOfImage, h, encode_blockOfBytes]
  · simp [assembleLine, assembleInstrs, h]

theorem assembleLine_tail {b : List Byte} (h : b.length ≤ 15) : assembleLine (.tail b) = some [encode (tailOfBytes b)] := by
  rw [assembleLine, assembleInstrs, if_pos h]
  rfl

theorem assembleLine_tail_of_too_long {b : List Byte} (h : 15 < b.length) : assembleLine (.tail b) = none := by
  rw [assembleLine, assembleInstrs, if_neg h.not_ge, Option.map_none]

/-- TAIL's header is the number 0x80 and the count. -/
theorem headerOf_encode_tailOfBytes {b : List Byte} (h : b.length ≤ 15) :
    headerOf (encode (tailOfBytes b)) = 0x80#8 + BitVec.ofNat 8 b.length := by
  have hsum : ∀ n ≤ 15, (0x8#4 ++ BitVec.ofNat 4 n : BitVec 8) = 0x80#8 + BitVec.ofNat 8 n := by decide
  rw [headerOf_encode, tailOfBytes, Instr.header, hsum _ h]

theorem payloadPart_encode_tailOfBytes {b : List Byte} (h : b.length ≤ 15) :
    payloadPart (encode (tailOfBytes b)) = payloadOf b := by
  rw [payloadPart_encode]
  exact of_decide_eq_true (wellFormed_tailOfBytes (t := b) (by omega))

/-- Settles O53: each line is one `encode`, whose payload is the seed modulo 2^32 (`toNat_payloadPart_encode_reset`) or the
bytes in their lanes. -/
theorem assemblerLines : Obligations.AssemblerLines :=
  ⟨fun n hlow hhigh => ⟨_, assembleLine_reset hlow hhigh, headerOf_encode _, toNat_payloadPart_encode_reset n⟩,
    fun _ => assembleLine_reset_of_out_of_range, by decide, assembleLine_block,
    fun _ h => ⟨_, assembleLine_tail h, headerOf_encode_tailOfBytes h, payloadPart_encode_tailOfBytes h⟩,
    fun _ => assembleLine_tail_of_too_long, by decide, fun _ => rfl⟩

end Sys2Proof.Machine
end
